-- ==== Sys2Proof/Word.lean ====
section
/-! DEFINITION. The two word types of CORE (rule R5: a sample is 8 bits, a pixel word is 32 bits). -/

namespace Sys2Proof

/-- An 8-bit channel sample, residual byte or command byte (rules R5, R52). -/
abbrev Byte := BitVec 8

/-- A packed 32-bit word: format `PIX` (rule R50) or format `RES` (rule R51). -/
abbrev Word := BitVec 32

end Sys2Proof
end

