-- ==== Sys2Proof/Syntax.lean ====
section
/-! DEFINITION. The command set of CORE: one constructor per row of spec/opcode_table.json (rule R52). -/

namespace Sys2Proof

/-- A command of format `CMDB` (rule R52) whose reserved bits 7:4 are 0.
Both rows of the opcode table leave the three bits of `PRED` free (mask `0xF1`), so the selector is the operand of the
constructor; a selector other than 0 names no predictor and its command takes `PrecondFault(E_PRED)` (rule R57; DEDUCED,
log entry 11). -/
inductive Instr where
  /-- `ENC`, the residual encode scan (rule R101). -/
  | enc (pred : BitVec 3)
  /-- `DEC`, the residual decode scan (rule R102). -/
  | dec (pred : BitVec 3)
  deriving DecidableEq, Repr

end Sys2Proof
end

