-- ==== Sys2Proof/WellFormed.lean ====
section
/-! DEFINITION. Which commands are well formed. -/

namespace Sys2Proof

/-- `PRED` must select a predictor that exists: `NPRED = 1`, and 0 = MED is the only one (rules R6, R52); 1 to 7 are
reserved. -/
def predExists (pred : BitVec 3) : Bool := pred == 0#3

/-- A command is well formed when its predictor selector is not reserved (rules R52, R57). -/
def Instr.wf : Instr → Bool
  | .enc pred => predExists pred
  | .dec pred => predExists pred

end Sys2Proof
end

