-- ==== Sys2Proof/Decode.lean ====
section
/-! DEFINITION. The command byte, format `CMDB` (rules R52, R53): its fields, its decoder (total on all 256 bytes,
rejecting by name) and its encoder. -/

namespace Sys2Proof

/-- Field `RSV`, bits 7:4 of a command byte (rule R52). -/
def cmdRsv (c : Byte) : BitVec 4 := c.extractLsb' 4 4

/-- Field `PRED`, bits 3:1 of a command byte (rule R52). -/
def cmdPred (c : Byte) : BitVec 3 := c.extractLsb' 1 3

/-- Field `OP`, bit 0 of a command byte (rule R52). -/
def cmdOp (c : Byte) : BitVec 1 := c.extractLsb' 0 1

/-- Why a byte is no command. -/
inductive DecodeError where
  /-- Some bit of `RSV` is set: the byte is illegal (rule R57). -/
  | reservedBits (rsv : BitVec 4)
  deriving DecidableEq, Repr

/-- The decoder of format `CMDB` (rules R52, R53, R57).
A byte with `RSV = 0` is a command whatever its `PRED`: that a selector 1 to 7 names no predictor is found by the start
check (rule R136, code 2), not here. -/
def decode (c : Byte) : Except DecodeError Instr :=
  if cmdRsv c ≠ 0#4 then .error (.reservedBits (cmdRsv c))
  else if cmdOp c = 0#1 then .ok (.enc (cmdPred c))
  else .ok (.dec (cmdPred c))

/-- A byte of format `CMDB` from its three fields, high bits first (rule R52). -/
def cmdByte (rsv : BitVec 4) (pred : BitVec 3) (op : BitVec 1) : Byte := rsv ++ pred ++ op

/-- The byte of a command (rule R52: `OP` is 0 for `ENC`, 1 for `DEC`; `RSV` is 0). -/
def encode : Instr → Byte
  | .enc pred => cmdByte 0#4 pred 0#1
  | .dec pred => cmdByte 0#4 pred 1#1

/-- The command the decoder reads from the opcode table's word `w` of `nbits` bits.
Every command is exactly one byte (rule R53), so a word that does not fit a byte is none. -/
def decodeTableWord (nbits w : Nat) : Option Instr :=
  if w % 2 ^ nbits < 256 then (decode (BitVec.ofNat 8 (w % 2 ^ nbits))).toOption else none

end Sys2Proof
end

