-- ==== Sys2Proof/Config.lean ====
section
/-! DEFINITION. What an implementation fixes (rule R6: the OPEN parameters `CW` and `NWORDS`) and the one source of
free values, which the spec leaves open. -/

namespace Sys2Proof

/-- The OPEN parameters of rule R6.
The spec has a model take them as arguments; the interface of this package has no argument for them, so a machine
carries its `Config` in its state and no step changes it (log entry 1). -/
structure Config where
  /-- `CW`: width in bits of each parameter register and of `CUR_X`, `CUR_Y`. -/
  cw : Nat
  /-- `NWORDS`: number of 32-bit words in each of SRC and DST. -/
  nwords : Nat
  deriving DecidableEq, Repr

/-- `AW = 2*CW`, the width in bits of a linear offset (rule R6). -/
def Config.aw (c : Config) : Nat := 2 * c.cw

/-- The constraints of rule R6: `CW >= 1` and `0 <= NWORDS <= 2^AW`. -/
def Config.wf (c : Config) : Bool := decide (1 ≤ c.cw) && decide (c.nwords ≤ 2 ^ c.aw)

/-- The reference values of rule R6, those of the spec's test vectors. -/
def Config.reference : Config := { cw := 16, nwords := 16 }

/-- Where every free value comes from: the `n`-th draw, with no body, so that nothing can be proved of its value.
Entry U8 and entry U11 of the spec (`ACT_OP`, `ACT_PRED`, `CUR_X`, `CUR_Y` outside BUSY: "any value"). -/
opaque Config.freeValue : Nat → Nat

end Sys2Proof
end

