-- ==== Sys2Proof/Machine/State.lean ====
section
/-! DEFINITION. The state of CORE and of the platform it reads and writes, as plain data: the registers of
spec/10_state.md, the two buffer memories of spec/20_memory.md, and the host's pending moves. -/

namespace Sys2Proof.Machine

/-- The two buffer memories (rule R30). -/
inductive Buffer where
  | src
  | dst
  deriving DecidableEq, Repr

/-- The latched field `ACT_OP`: 0 = encode, 1 = decode (rule R16). -/
inductive Op where
  | enc
  | dec
  deriving DecidableEq, Repr

/-- `STATUS.STATE` (rule R14). -/
inductive EngineState where
  | idle
  | busy
  | done
  | error
  deriving DecidableEq, Repr

/-- The five codes of `PrecondFault` (rule R135).
`none` of an `Option FaultCode` is code 0; codes 6 to 15 never occur and cannot be written down (log entry 16). -/
inductive FaultCode where
  /-- 1, `E_CMD`: a reserved bit of the command byte is set. -/
  | eCmd
  /-- 2, `E_PRED`: the command byte selects a predictor that does not exist. -/
  | ePred
  /-- 3, `E_SIZE`: the raster does not fit the buffers. -/
  | eSize
  /-- 4, `E_REGION_X`: the region leaves the raster on the right. -/
  | eRegionX
  /-- 5, `E_REGION_Y`: the region leaves the raster at the bottom. -/
  | eRegionY
  deriving DecidableEq, Repr

/-- The six parameter registers, indices 0 to 5 in this order (rule R10).
Each holds an unsigned `CW`-bit integer; that its value is below `2^CW` is part of the machine's invariant (log
entry 16). -/
structure Params where
  width : Nat
  height : Nat
  originX : Nat
  originY : Nat
  regionW : Nat
  regionH : Nat
  deriving DecidableEq, Repr

/-- The contents of one buffer memory: (word index, word) pairs with rising indices, no pair whose word is what an
unlisted index reads as. The unit is the 32-bit word: CORE has no byte address (rules R33 to R36). -/
abbrev Memory := List (Nat × Word)

/-- What the host can do (rules R59, R145, R146). -/
inductive HostAction where
  /-- `(W, index, value)`: write a register (rules R17, R59); index 6 issues a command. -/
  | write (index value : Nat)
  /-- `(R, index)`: read a register (rules R17, R59). -/
  | read (index : Nat)
  /-- `WAIT`: read STATUS until `STATE != BUSY` (rule R59). -/
  | wait
  /-- Write the word at an index of a buffer the host owns (rule R146). -/
  | writeWord (b : Buffer) (i : Nat) (v : Word)
  /-- Read the word at an index of a buffer the host owns (rule R146). -/
  | readWord (b : Buffer) (i : Nat)
  /-- Assert the reset input (rule R155). -/
  | reset
  deriving DecidableEq, Repr

/-- Which agent moves next: the host with an action, or the engine (rule R142 (b): host accesses and engine steps occur
in some total order). -/
inductive Turn where
  | host (a : HostAction)
  | engine
  deriving DecidableEq, Repr

/-- Why a step stops with a fault. `PrecondFault` is not one of these: it is a next state (rule R137). -/
inductive Fault where
  /-- An access to a word index at or above `NWORDS`, which does not exist (rules R30, R33, R34).
  Raised by a step of the engine, which it never stops in a state of the invariant (rule R139), and by a host's buffer
  move to such an index. Safe (DEDUCED, log entry 12). -/
  | noSuchWord (b : Buffer) (i : Nat)
  /-- A step of the engine with a latched `ACT_PRED` that selects no predictor (rules R16, R72).
  Never raised in a state of the invariant: the start check rejects such a command (rule R136). Safe (DEDUCED,
  log entry 13). -/
  | noSuchPredictor (pred : BitVec 3)
  deriving DecidableEq, Repr

/-- Why a step is refused. -/
inductive Refusal where
  /-- The dispatcher has no meaning for the instruction. No arm answers it. Safe. -/
  | notModelled (mnemonic : String)
  /-- The host moves on a buffer while the engine is BUSY: entry U7 of the spec, "refuse: the host has no buffer move
  while BUSY" (rule R166). Raised by the host's buffer moves. Safe (DEDUCED, log entry 14). -/
  | bufferMoveWhileBusy (b : Buffer) (i : Nat)
  deriving DecidableEq, Repr

/-- The state of CORE, its two memories and the host's side (spec/10_state.md, spec/20_memory.md). -/
structure State where
  /-- The parameters `CW` and `NWORDS` of rule R6; no step changes them (log entry 1). -/
  cfg : Config
  /-- The six parameter registers (rule R10). -/
  params : Params
  /-- `STATUS.STATE` (rules R13, R14). -/
  state : EngineState
  /-- `STATUS.ERRCODE` (rules R13, R15); `none` is code 0. -/
  errCode : Option FaultCode
  /-- The latched `ACT_OP` (rule R16). -/
  actOp : Op
  /-- The latched `ACT_PRED` (rule R16). -/
  actPred : BitVec 3
  /-- The scan position's column `CUR_X` (rule R18). -/
  curX : Nat
  /-- The scan position's row `CUR_Y` (rule R18). -/
  curY : Nat
  /-- The input buffer SRC (rules R22, R30). -/
  src : Memory
  /-- The output buffer DST (rules R22, R30). -/
  dst : Memory
  /-- MODEL'S OWN: the turns to come, oldest first; when it is empty the engine has every turn (log entry 4). -/
  schedule : List Turn
  /-- MODEL'S OWN: the values the host's reads have answered, newest first (log entry 5). -/
  received : List Nat
  /-- MODEL'S OWN: how many free values have been drawn (log entry 3). -/
  draws : Nat
  deriving DecidableEq, Repr

/-- The state after reset (rule R23) of a machine with the parameters `cfg` whose memories hold `src` and `dst`: "A model
takes the contents at the start of a run as launch parameters."
The value 0 of `ACT_OP`, `ACT_PRED`, `CUR_X`, `CUR_Y` is the model's (log entry 2). -/
def State.resetWith (cfg : Config) (src dst : Memory) : State where
  cfg := cfg
  params := { width := 0, height := 0, originX := 0, originY := 0, regionW := 0, regionH := 0 }
  state := .idle
  errCode := none
  actOp := .enc
  actPred := 0#3
  curX := 0
  curY := 0
  src := src
  dst := dst
  schedule := []
  received := []
  draws := 0

/-- The machine right after reset, with the reference parameters of rule R6 and memories in which nothing is listed. -/
def State.reset : State := State.resetWith Config.reference [] []

end Sys2Proof.Machine
end

