-- ==== Sys2Proof/Machine/Flags.lean ====
section
/-! DEFINITION. The STATUS byte (rules R13, R56). CORE has no other flag: no operation on pixel data sets one
(rules R85 to R88). -/

namespace Sys2Proof.Machine

/-- `STATE` as the two bits 1:0 of STATUS (rule R13). -/
def EngineState.bits : EngineState → BitVec 2
  | .idle => 0#2
  | .busy => 1#2
  | .done => 2#2
  | .error => 3#2

/-- A fault code as a number (rule R135). -/
def FaultCode.bits : FaultCode → BitVec 4
  | .eCmd => 1#4
  | .ePred => 2#4
  | .eSize => 3#4
  | .eRegionX => 4#4
  | .eRegionY => 5#4

/-- `ERRCODE` as the four bits 7:4 of STATUS: 0 when there is no code (rule R13). -/
def errBits : Option FaultCode → BitVec 4
  | none => 0#4
  | some code => code.bits

/-- The byte a read of STATUS returns (rules R13, R56): `ERRCODE`, two reserved bits that read as 0, `STATE`. -/
def statusByte (s : State) : Byte := errBits s.errCode ++ 0#2 ++ s.state.bits

end Sys2Proof.Machine
end

