-- ==== Sys2Proof/Machine/Operands.lean ====
section
/-! DEFINITION. The operand forms: lanes of a word (rules R55, R65), parameter registers by index (rule R10), and the
exact coordinate quantities made of them (rule R54). -/

namespace Sys2Proof.Machine

/-- `lane(w, k)`: the byte of `w` at bit offset `8k` (rule R65). -/
def lane (w : Word) (k : Fin 4) : Byte := w.extractLsb' (8 * k.val) 8

/-- `pack4(b3, b2, b1, b0)`: only the low 8 bits of each value are used, so none spills into a neighbouring lane
(rule R65). -/
def pack4 (b3 b2 b1 b0 : Nat) : Word :=
  BitVec.ofNat 8 b3 ++ BitVec.ofNat 8 b2 ++ BitVec.ofNat 8 b1 ++ BitVec.ofNat 8 b0

/-- The word whose lane `k` is `f k`: the last line of the packed operations (rules R73, R87, R88). -/
def packLanes (f : Fin 4 → Byte) : Word := pack4 (f 3).toNat (f 2).toNat (f 1).toNat (f 0).toNat

/-- The parameter register at an index; any index above 5 reads 0 here (rules R10, R17). -/
def Params.get (p : Params) (index : Nat) : Nat :=
  match index with
  | 0 => p.width
  | 1 => p.height
  | 2 => p.originX
  | 3 => p.originY
  | 4 => p.regionW
  | 5 => p.regionH
  | _ => 0

/-- `P[r] <- v`: replace the parameter register at an index; any index above 5 names none (rules R10, R17). -/
def Params.set (p : Params) (index v : Nat) : Params :=
  match index with
  | 0 => { p with width := v }
  | 1 => { p with height := v }
  | 2 => { p with originX := v }
  | 3 => { p with originY := v }
  | 4 => { p with regionW := v }
  | 5 => { p with regionH := v }
  | _ => p

/-- The product `WIDTH*HEIGHT`, formed exactly (rules R54, R136). -/
def Params.rasterSize (p : Params) : Nat := p.width * p.height

/-- The sum `ORIGIN_X + REGION_W`, formed exactly (rules R54, R136). -/
def Params.regionRight (p : Params) : Nat := p.originX + p.regionW

/-- The sum `ORIGIN_Y + REGION_H`, formed exactly (rules R54, R136). -/
def Params.regionBottom (p : Params) : Nat := p.originY + p.regionH

/-- The linear offset of the cell at column `x` and row `y`: the stride is `WIDTH`, never the region's width
(rules R32, R99). -/
def Params.cellOffset (p : Params) (x y : Nat) : Nat := y * p.width + x

/-- The region has no cell (rules R95, R107). -/
def Params.regionEmpty (p : Params) : Bool := p.regionW == 0 || p.regionH == 0

end Sys2Proof.Machine
end

