-- ==== Sys2Proof/Machine/Ops.lean ====
section
/-! DEFINITION. The shared operations: reading and writing a buffer memory, the start check, taking `PrecondFault`,
issuing a command, reset, and drawing free values. -/

namespace Sys2Proof.Machine

/-! ## Buffer memories -/

/-- What an index that is not listed reads as (log entry 6). -/
def Memory.unlisted : Word := 0#32

/-- `MemRead(B[i], 4)` (rule R33): the word stored at index `i`. -/
def Memory.read (m : Memory) (i : Nat) : Word :=
  match m with
  | [] => Memory.unlisted
  | (j, w) :: rest => if j = i then w else Memory.read rest i

/-- One pair in front of a memory, unless its word is what an unlisted index reads as. -/
def Memory.consCell (i : Nat) (v : Word) (m : Memory) : Memory :=
  if v = Memory.unlisted then m else (i, v) :: m

/-- `MemWrite(B[i], 4, v)` (rule R34): all 32 bits at once; the result is in canonical form again. -/
def Memory.write (m : Memory) (i : Nat) (v : Word) : Memory :=
  match m with
  | [] => Memory.consCell i v []
  | (j, w) :: rest =>
    if i < j then Memory.consCell i v ((j, w) :: rest)
    else if i = j then Memory.consCell i v rest
    else (j, w) :: Memory.write rest i v

/-- Indices rising strictly from `lo` on, none at or above `hi`, and no listed word equal to what an unlisted index
reads as. -/
def Memory.wfFrom (lo hi : Nat) (m : Memory) : Bool :=
  match m with
  | [] => true
  | (j, w) :: rest => decide (lo ≤ j) && decide (j < hi) && (w != Memory.unlisted) && Memory.wfFrom (j + 1) hi rest

/-- The canonical form of a buffer of `nwords` words (rule R30: indices `0 .. NWORDS-1`). -/
def Memory.wf (nwords : Nat) (m : Memory) : Bool := Memory.wfFrom 0 nwords m

/-! ## The start check -/

/-- `StartCheck` (rule R136): the first code whose condition holds, in the fixed order, or `none` for code 0. -/
def startCheck (c : Byte) (nwords : Nat) (p : Params) : Option FaultCode :=
  if cmdRsv c ≠ 0#4 then some .eCmd
  else if cmdPred c ≠ 0#3 then some .ePred
  else if p.rasterSize > nwords then some .eSize
  else if p.regionRight > p.width then some .eRegionX
  else if p.regionBottom > p.height then some .eRegionY
  else none

/-! ## Taking the fault, and what stands for a return from it -/

/-- `raise PrecondFault(code)` (rule R137): STATUS, and nothing else (log entry 17). -/
def raisePrecond (code : FaultCode) (s : State) : State := { s with state := .error, errCode := some code }

/-- `ACT_OP <- c[0]` (rule R16): 0 = encode, 1 = decode. -/
def Op.ofBit (b : BitVec 1) : Op := if b = 0#1 then .enc else .dec

/-- A command that passed the start check is latched and clears `ERRCODE` (rules R15, R16, R96).
This is all there is of a return from a fault: the next accepted command overwrites STATUS (rule R143). -/
def latchCommand (c : Byte) (s : State) : State :=
  { s with errCode := none, actOp := Op.ofBit (cmdOp c), actPred := cmdPred c }

/-- The start of a scan: DONE at once for an empty region (rule R107), else the region's first cell and BUSY
(rules R96, R98). -/
def startScan (s : State) : State :=
  if s.params.regionEmpty then { s with state := .done }
  else { s with curX := s.params.originX, curY := s.params.originY, state := .busy }

/-- Command issue (rule R96): a CMD write of byte `c`, ignored while BUSY (rule R17). -/
def issue (c : Byte) (s : State) : State :=
  if s.state = .busy then s
  else
    match startCheck c s.cfg.nwords s.params with
    | some code => raisePrecond code s
    | none => startScan (latchCommand c s)

/-! ## Free values and reset -/

/-- The scan position at two free values of `CW` bits: outside BUSY it is unspecified (rules R18, R104; entry U11). -/
def freePosition (s : State) : State :=
  { s with
    curX := Config.freeValue s.draws % 2 ^ s.cfg.cw
    curY := Config.freeValue (s.draws + 1) % 2 ^ s.cfg.cw
    draws := s.draws + 2 }

/-- The latched fields at two free values: unspecified after a reset (rules R23, R155; entry U8). -/
def freeLatch (s : State) : State :=
  { s with
    actOp := Op.ofBit (BitVec.ofNat 1 (Config.freeValue s.draws))
    actPred := BitVec.ofNat 3 (Config.freeValue (s.draws + 1))
    draws := s.draws + 2 }

/-- The reset event (rules R23, R155), in any state: registers to their reset values, the running command abandoned
(rule R156), SRC and DST neither read nor written. -/
def applyReset (s : State) : State :=
  freeLatch (freePosition
    { s with
      params := { width := 0, height := 0, originX := 0, originY := 0, regionW := 0, regionH := 0 }
      state := .idle
      errCode := none })

end Sys2Proof.Machine
end

