-- ==== Sys2Proof/Machine/Commands.lean ====
section
/-! DEFINITION. The meanings of the two commands at their issue (rules R52, R96, R101, R102). A command is issued by one
step and then carried out by the engine, one CELL a step (rule R100), until `STATE = DONE` (DEDUCED, log entry 10). -/

namespace Sys2Proof.Machine

/-- `ENC` (rule R101): issue with `OP = 0`. -/
def execEnc (pred : BitVec 3) (s : State) : Host.Outcome State Fault Refusal := .next (issue (encode (.enc pred)) s)

/-- `DEC` (rule R102): issue with `OP = 1`. -/
def execDec (pred : BitVec 3) (s : State) : Host.Outcome State Fault Refusal := .next (issue (encode (.dec pred)) s)

end Sys2Proof.Machine
end

