-- ==== Sys2Proof/Machine/Dispatch.lean ====
section
/-! DEFINITION. One arm per command. -/

namespace Sys2Proof.Machine

def exec (i : Instr) (s : State) : Host.Outcome State Fault Refusal :=
  match i with
  | .enc pred => Sys2Proof.Machine.execEnc pred s
  | .dec pred => Sys2Proof.Machine.execDec pred s

end Sys2Proof.Machine
end

