-- ==== Sys2Proof/Machine/HostPort.lean ====
section
/-! DEFINITION. The host's moves (rules R17, R59, R145, R146, R155) and the pseudo-commands made of them (rule R60). -/

namespace Sys2Proof.Machine

/-- A CMD write of byte `c` (rules R12, R96): the decoded command's meaning; an illegal byte is not started and raises
`PrecondFault(E_CMD)` (rule R57). -/
def commandByte (c : Byte) (s : State) : Host.Outcome State Fault Refusal :=
  match decode c with
  | .ok i => exec i s
  | .error _ => .next (raisePrecond .eCmd s)

/-- `WR <reg>, <value>` (rule R17): ignored while BUSY; indices 0 to 5 take the low `CW` bits of the value, index 6 its
low 8 bits as a command byte (log entry 7); index 7 and above are ignored. -/
def writeReg (index value : Nat) (s : State) : Host.Outcome State Fault Refusal :=
  if s.state = .busy then .next s
  else if index = 6 then commandByte (BitVec.ofNat 8 value) s
  else .next { s with params := s.params.set index (value % 2 ^ s.cfg.cw) }

/-- The value a register read answers (rule R17): indices 0 to 5 the parameter register, 7 STATUS, 6 and any other 0. -/
def readReg (index : Nat) (s : State) : Nat := if index = 7 then (statusByte s).toNat else s.params.get index

/-- A value is handed to the host (log entry 5). -/
def receive (v : Nat) (s : State) : State := { s with received := v :: s.received }

/-- The words of a buffer. -/
def bufferOf (b : Buffer) (s : State) : Memory :=
  match b with
  | .src => s.src
  | .dst => s.dst

/-- Store a word at an index of a buffer (rule R34). -/
def storeWord (b : Buffer) (i : Nat) (v : Word) (s : State) : State :=
  match b with
  | .src => { s with src := s.src.write i v }
  | .dst => { s with dst := s.dst.write i v }

/-- When the host may move on a buffer: not while BUSY (rules R30, R146, R166; entry U7), and only at an index the buffer
has (rule R30). -/
def bufferMove (b : Buffer) (i : Nat) (s t : State) : Host.Outcome State Fault Refusal :=
  if s.state = .busy then .refused (.bufferMoveWhileBusy b i)
  else if i < s.cfg.nwords then .next t
  else .fault (.noSuchWord b i)

/-- `WAIT` (rule R59): one read of STATUS; while BUSY the engine has a turn before the next read (log entry 8). -/
def waitPoll (s : State) : State :=
  if s.state = .busy then
    { receive (readReg 7 s) s with schedule := .engine :: .host .wait :: s.schedule }
  else receive (readReg 7 s) s

/-- What a host action does. -/
def hostAct (a : HostAction) (s : State) : Host.Outcome State Fault Refusal :=
  match a with
  | .write index value => writeReg index value s
  | .read index => .next (receive (readReg index s) s)
  | .wait => .next (waitPoll s)
  | .writeWord b i v => bufferMove b i s (storeWord b i v s)
  | .readWord b i => bufferMove b i s (receive ((bufferOf b s).read i).toNat s)
  | .reset => .next (applyReset s)

/-! ## Pseudo-commands -/

/-- The six register writes that begin a pseudo-command (rule R60). -/
def setParams (w h ox oy rw rh : Nat) : List HostAction :=
  [.write 0 w, .write 1 h, .write 2 ox, .write 3 oy, .write 4 rw, .write 5 rh]

/-- The line `ENC`: `WR CMD, 0x00` (rule R59). -/
def encLine : HostAction := .write 6 0x00

/-- The line `DEC`: `WR CMD, 0x01` (rule R59). -/
def decLine : HostAction := .write 6 0x01

/-- `ENCODE_REGION w, h, ox, oy, rw, rh` (rule R60). -/
def encodeRegion (w h ox oy rw rh : Nat) : List HostAction := setParams w h ox oy rw rh ++ [encLine, .wait]

/-- `DECODE_REGION w, h, ox, oy, rw, rh` (rule R60). -/
def decodeRegion (w h ox oy rw rh : Nat) : List HostAction := setParams w h ox oy rw rh ++ [decLine, .wait]

/-- `ENCODE_ALL w, h` (rule R60). -/
def encodeAll (w h : Nat) : List HostAction := encodeRegion w h 0 0 w h

/-- `DECODE_ALL w, h` (rule R60). -/
def decodeAll (w h : Nat) : List HostAction := decodeRegion w h 0 0 w h

end Sys2Proof.Machine
end

