-- ==== Sys2Proof/Machine/Predictor.lean ====
section
/-! DEFINITION. The pixel predictor engine of spec/40_predictor.md: neighbour fetch, the median edge detector of one
lane, the packed predictor. -/

namespace Sys2Proof.Machine

/-- `clamp(v, lo, hi)` on integers (spec/00_scope.md section 5). -/
def clamp (v lo hi : Int) : Int := if v < lo then lo else if v > hi then hi else v

/-- `min3` of three unsigned samples (spec/00_scope.md section 5; rule R69). -/
def min3 (a b c : Byte) : Nat := min a.toNat (min b.toNat c.toNat)

/-- `max3` of three unsigned samples (spec/00_scope.md section 5; rule R69). -/
def max3 (a b c : Byte) : Nat := max a.toNat (max b.toNat c.toNat)

/-- `MED8` (rules R68, R69): `a` left, `b` up, `c` up-left; `a + b − c` is an exact integer, the bounds are unsigned. -/
def med8 (a b c : Byte) : Byte :=
  BitVec.ofInt 8 (clamp ((a.toNat : Int) + b.toNat - c.toNat) (min3 a b c) (max3 a b c))

/-- The neighbour words of a cell after the missing-neighbour policy (rules R20, R66). -/
structure Neighbours where
  left : Word
  up : Word
  upLeft : Word
  deriving DecidableEq, Repr

/-- The word at an integer offset of a buffer; a negative offset names a missing neighbour, the word 0, for which no read
is made (rule R66, clauses 2 and 3). -/
def neighbourAt (b : Memory) (off : Int) : Word := if off < 0 then 0#32 else b.read off.toNat

/-- `NFETCH` (rule R66): clause 1 of the policy is the test `x = 0`, which the up neighbour does not have. -/
def nfetch (b : Memory) (w x off : Nat) : Neighbours where
  left := if x = 0 then 0#32 else neighbourAt b ((off : Int) - 1)
  up := neighbourAt b ((off : Int) - w)
  upLeft := if x = 0 then 0#32 else neighbourAt b ((off : Int) - w - 1)

/-- The predictor contract (rule R72): a pure function of the buffer, the raster's width and height, the cell's column,
row and offset. -/
abbrev Predictor := Memory → (width height x y off : Nat) → Word

/-- `PRED32`, the packed MED predictor (rule R73). The height and the row are part of the contract and unused. -/
def pred32 : Predictor := fun b width _height x _y off =>
  let n := nfetch b width x off
  packLanes fun k => med8 (lane n.left k) (lane n.up k) (lane n.upLeft k)

/-- The predictor a selector names: 0 is MED, there is no other (rules R6, R52, R72). -/
def predictorOf (pred : BitVec 3) : Option Predictor := if pred = 0#3 then some pred32 else none

end Sys2Proof.Machine
end

