-- ==== Sys2Proof/Machine/Residual.lean ====
section
/-! DEFINITION. The 8-bit residual encoder and decoder of spec/41_residual.md. -/

namespace Sys2Proof.Machine

/-- `RSUB8`, the residual of one lane: `(s − p) mod 256` (rule R85). -/
def rsub8 (s p : Byte) : Byte := BitVec.ofInt 8 ((s.toNat : Int) - p.toNat)

/-- `RADD8`, the reconstruction of one lane: `(r + p) mod 256` (rule R86). -/
def radd8 (r p : Byte) : Byte := BitVec.ofInt 8 ((r.toNat : Int) + p.toNat)

/-- `RSUB32`, the residual word of a cell, lane by lane (rule R87). -/
def rsub32 (cur pw : Word) : Word := packLanes fun k => rsub8 (lane cur k) (lane pw k)

/-- `RADD32`, the reconstructed word of a cell, lane by lane (rule R88). -/
def radd32 (cur pw : Word) : Word := packLanes fun k => radd8 (lane cur k) (lane pw k)

end Sys2Proof.Machine
end

