-- ==== Sys2Proof/Machine/Scan.lean ====
section
/-! DEFINITION. The raster scan sequencer of spec/42_scan.md: OFFSET, CELL (one step of the engine), ADVANCE; and the
loops of rules R101 and R102, which the steps are to be compared with. -/

namespace Sys2Proof.Machine

/-- `OFFSET`, the linear offset of the cell at the scan position (rules R19, R99). -/
def offset (s : State) : Nat := s.params.cellOffset s.curX s.curY

/-- `MemWrite(DST[off], 4, v)` on the state (rule R34). -/
def storeDst (off : Nat) (v : Word) (s : State) : State := { s with dst := s.dst.write off v }

/-- The end of a run: DONE, and the scan position is unspecified from here on (rules R18, R104). -/
def finish (s : State) : State := freePosition { s with state := .done }

/-- `ADVANCE` (rule R104): the next cell of the row, the first cell of the next row, or the end. -/
def advance (s : State) : State :=
  if s.curX + 1 < s.params.regionRight then { s with curX := s.curX + 1 }
  else if s.curY + 1 < s.params.regionBottom then { s with curX := s.params.originX, curY := s.curY + 1 }
  else finish s

/-- The word an encode step writes (rule R100): the neighbours come from SRC. -/
def encWord (predict : Predictor) (p : Params) (src : Memory) (x y : Nat) : Word :=
  rsub32 (src.read (p.cellOffset x y)) (predict src p.width p.height x y (p.cellOffset x y))

/-- The word a decode step writes (rule R100): the neighbours come from DST as it is at this moment. -/
def decWord (predict : Predictor) (p : Params) (src dst : Memory) (x y : Nat) : Word :=
  radd32 (src.read (p.cellOffset x y)) (predict dst p.width p.height x y (p.cellOffset x y))

/-- `OUTW` of the current cell, as the latched operation has it (rule R100). -/
def outWord (predict : Predictor) (s : State) : Word :=
  match s.actOp with
  | .enc => encWord predict s.params s.src s.curX s.curY
  | .dec => decWord predict s.params s.src s.dst s.curX s.curY

/-- `CELL`, one step of the engine (rule R100), with the predictor the latched `ACT_PRED` selects (rules R16, R72).
Every index the step uses is at most the cell's own offset (rule R33), so one test covers all of its accesses. -/
def cell (s : State) : Host.Outcome State Fault Refusal :=
  match predictorOf s.actPred with
  | none => .fault (.noSuchPredictor s.actPred)
  | some predict =>
    if offset s < s.cfg.nwords then .next (advance (storeDst (offset s) (outWord predict s) s))
    else .fault (.noSuchWord .src (offset s))

/-- The engine's turn: CELL is enabled iff `STATE = BUSY` (rule R100); otherwise no step is enabled and nothing changes
(rules R148, R155; log entry 4). -/
def engineTurn (s : State) : Host.Outcome State Fault Refusal := if s.state = .busy then cell s else .next s

/-! ## The loops of the two commands -/

/-- The region's cells (column, row) in scan order (rules R95, R97). -/
def regionCells (p : Params) : List (Nat × Nat) :=
  (List.range p.regionH).flatMap fun j => (List.range p.regionW).map fun i => (p.originX + i, p.originY + j)

/-- The encode loop of rule R101 over a list of cells. -/
def encCells (p : Params) (src : Memory) (cells : List (Nat × Nat)) (dst : Memory) : Memory :=
  cells.foldl (fun d c => d.write (p.cellOffset c.1 c.2) (encWord pred32 p src c.1 c.2)) dst

/-- The decode loop of rule R102 over a list of cells: each iteration reads what the earlier ones wrote. -/
def decCells (p : Params) (src : Memory) (cells : List (Nat × Nat)) (dst : Memory) : Memory :=
  cells.foldl (fun d c => d.write (p.cellOffset c.1 c.2) (decWord pred32 p src d c.1 c.2)) dst

/-- `ENC(S, D, g)` of spec/43_laws.md: the loop of rule R101 over the whole region. -/
def encLoop (p : Params) (src dst : Memory) : Memory := encCells p src (regionCells p) dst

/-- `DEC(S, D, g)` of spec/43_laws.md: the loop of rule R102 over the whole region. -/
def decLoop (p : Params) (src dst : Memory) : Memory := decCells p src (regionCells p) dst

end Sys2Proof.Machine
end

