-- ==== Sys2Proof/Machine/Step.lean ====
section
/-! DEFINITION. One step of the machine: the next turn of the schedule, taken by the agent it names. -/

namespace Sys2Proof.Machine

/-- One atomic move of one agent (rule R142 (b)): the host's next action, or the engine's turn; with no turn listed the
engine has it (rule R110). -/
def step (s : State) : Host.Outcome State Fault Refusal :=
  match s.schedule with
  | [] => engineTurn s
  | .engine :: rest => engineTurn { s with schedule := rest }
  | .host a :: rest => hostAct a { s with schedule := rest }

/-- `s` with the command byte `w` as the host's next move: a write of it to CMD, in front of the turns already listed.
A command is taken only when the engine is not BUSY (rule R96), so a BUSY engine is set to IDLE (log entry 9). -/
def State.withFetchWord (s : State) (nbits w : Nat) : State :=
  { s with
    state := if s.state = .busy then .idle else s.state
    schedule := .host (.write 6 (w % 2 ^ nbits)) :: s.schedule }

end Sys2Proof.Machine
end

