-- ==== Sys2Proof/Safety.lean ====
section
/-! DEFINITION. What a safe state is (the invariant of the machine), runs of steps, and the words the laws of
spec/43_laws.md are stated in. -/

namespace Sys2Proof.Machine

/-- `k` steps of the machine, stopping at the first fault or refusal. -/
abbrev run (k : Nat) (s : State) : Host.Outcome State Fault Refusal := Sys2Proof.core.run k s

/-! ## Regions and cells -/

/-- The three conditions of the start check on the parameter registers (rule R136): they pass. -/
abbrev Params.accepted (nwords : Nat) (p : Params) : Prop :=
  p.rasterSize ≤ nwords ∧ p.regionRight ≤ p.width ∧ p.regionBottom ≤ p.height

/-- Cell `(x, y)` is in the region (rule R95). -/
abbrev Params.inRegion (p : Params) (x y : Nat) : Prop :=
  p.originX ≤ x ∧ x < p.originX + p.regionW ∧ p.originY ≤ y ∧ y < p.originY + p.regionH

/-- Cell `(x, y)` is in the raster (rule R32). -/
abbrev Params.inRaster (p : Params) (x y : Nat) : Prop := x < p.width ∧ y < p.height

/-- `full(W, H)` of spec/43_laws.md: the region is the whole raster. -/
abbrev Params.full (p : Params) : Prop :=
  p.originX = 0 ∧ p.originY = 0 ∧ p.regionW = p.width ∧ p.regionH = p.height

/-- `(x', y')` is the left, up or up-left neighbour of `(x, y)` and lies in the raster (rules R66, R67): the left one
exists when `x > 0`, the up one when `y > 0`, the up-left one when both. -/
abbrev isNeighbour (x y x' y' : Nat) : Prop :=
  (x' + 1 = x ∧ y' = y) ∨ (x' = x ∧ y' + 1 = y) ∨ (x' + 1 = x ∧ y' + 1 = y)

/-- The offsets of the region's cells. -/
abbrev Params.regionOffset (p : Params) (i : Nat) : Prop := ∃ x y, p.inRegion x y ∧ i = p.cellOffset x y

/-- Buffer `r` holds the residuals of the pixels `pix` at every cell of the region (rule R123). -/
abbrev holdsResiduals (p : Params) (pix r : Memory) : Prop :=
  ∀ x y, p.inRegion x y →
    r.read (p.cellOffset x y)
      = rsub32 (pix.read (p.cellOffset x y)) (pred32 pix p.width p.height x y (p.cellOffset x y))

/-- Buffer `d` holds the pixels `pix` at every in-raster neighbour, outside the region, of a cell of the region
(rule R123). -/
abbrev holdsBorder (p : Params) (pix d : Memory) : Prop :=
  ∀ x y x' y', p.inRegion x y → isNeighbour x y x' y' → ¬ p.inRegion x' y' →
    d.read (p.cellOffset x' y') = pix.read (p.cellOffset x' y')

/-! ## The invariant -/

/-- Every parameter register holds a `CW`-bit value (rule R10). -/
abbrev Params.fits (cw : Nat) (p : Params) : Prop :=
  p.width < 2 ^ cw ∧ p.height < 2 ^ cw ∧ p.originX < 2 ^ cw ∧ p.originY < 2 ^ cw ∧ p.regionW < 2 ^ cw ∧
    p.regionH < 2 ^ cw

/-- What is true of a running command (rules R16, R18, R96): its parameters passed the start check, its predictor exists,
and the scan position is in the region. -/
abbrev State.scanning (s : State) : Prop :=
  s.params.accepted s.cfg.nwords ∧ s.actPred = 0#3 ∧ s.params.inRegion s.curX s.curY

/-- The invariant of the machine: the constraints of rule R6; registers within their widths (rules R10, R18); both
memories in canonical form and within `NWORDS` words (rule R30); `ERRCODE` is non-zero exactly in ERROR (rule R15); and
a BUSY engine is scanning. -/
abbrev State.Inv (s : State) : Prop :=
  s.cfg.wf = true ∧ s.params.fits s.cfg.cw ∧ s.curX < 2 ^ s.cfg.cw ∧ s.curY < 2 ^ s.cfg.cw ∧
    s.src.wf s.cfg.nwords = true ∧ s.dst.wf s.cfg.nwords = true ∧
    (s.errCode.isSome = true ↔ s.state = .error) ∧ (s.state = .busy → s.scanning)

/-- A command can be issued and run by itself: the invariant holds, the engine is not BUSY, no turn is listed, the
parameters pass the start check. -/
abbrev State.ready (s : State) : Prop :=
  s.Inv ∧ s.state ≠ .busy ∧ s.schedule = [] ∧ s.params.accepted s.cfg.nwords

/-! ## Turns -/

/-- The next turn is the engine's. -/
abbrev State.engineMoves (s : State) : Prop := s.schedule = [] ∨ s.schedule.head? = some .engine

/-- The state once its next turn is taken off the schedule. -/
def State.popTurn (s : State) : State := { s with schedule := s.schedule.tail }

/-- A host action that touches no buffer memory. -/
def HostAction.onRegisters : HostAction → Bool
  | .writeWord _ _ _ => false
  | .readWord _ _ => false
  | _ => true

/-- A list of host actions as turns. -/
def hostTurns (acts : List HostAction) : List Turn := acts.map .host

end Sys2Proof.Machine
end

