-- ==== Sys2Proof/Certificates/Slice0/Obligations.lean ====
section
/-! DEFINITION. The statements for the provers. -/

open Sys2Proof Sys2Proof.Machine

/-! ## Encodings -/

/-- Words written out from rule R52's layout (7:4 RSV, 3:1 PRED, 0 OP). -/
def Obligations.CommandBytesDecode : Prop :=
  decode 0b00000000#8 = .ok (.enc 0#3) ∧ decode 0b00000001#8 = .ok (.dec 0#3) ∧
  decode 0b00000010#8 = .ok (.enc 1#3) ∧ decode 0b00001111#8 = .ok (.dec 7#3) ∧
  decode 0b00010000#8 = .error (.reservedBits 1#4) ∧ decode 0b11110001#8 = .error (.reservedBits 15#4)

/-- No bit of a command is dropped by the encoder or the decoder (rule R52). -/
def Obligations.DecodeOfEncode : Prop := ∀ i : Instr, decode (encode i) = .ok i

/-- A byte has one meaning: what decodes encodes back, and exactly the bytes with a bit of `RSV` set are rejected
(rules R52, R57). -/
def Obligations.EncodeOfDecode : Prop :=
  (∀ c i, decode c = .ok i → encode i = c) ∧
  (∀ c, decode c = .error (.reservedBits (cmdRsv c)) ↔ cmdRsv c ≠ 0#4) ∧
  (∀ c, (∃ i, decode c = .ok i) ↔ cmdRsv c = 0#4)

/-- Rule R57: the classes of the 256 byte values, and that an illegal or reserved byte touches nothing but STATUS. -/
def Obligations.ByteClasses : Prop :=
  ((List.range 256).filter fun b => startCheck (BitVec.ofNat 8 b) 0 ⟨0, 0, 0, 0, 0, 0⟩ == none) = [0, 1] ∧
  ((List.range 256).filter fun b => startCheck (BitVec.ofNat 8 b) 0 ⟨0, 0, 0, 0, 0, 0⟩ == some .ePred) = List.range' 2 14 ∧
  ((List.range 256).filter fun b => startCheck (BitVec.ofNat 8 b) 0 ⟨0, 0, 0, 0, 0, 0⟩ == some .eCmd) = List.range' 16 240 ∧
  ∀ (s : State) (c : Byte), s.state ≠ .busy →
    (cmdRsv c ≠ 0#4 → commandByte c s = .next { s with state := .error, errCode := some .eCmd }) ∧
    (cmdRsv c = 0#4 → cmdPred c ≠ 0#3 → commandByte c s = .next { s with state := .error, errCode := some .ePred })

/-! ## Command issue and the fault -/

/-- A CMD write that comes up while the engine is not BUSY runs the command its byte decodes to; the step adds only that
the turn is taken off the schedule. A value above 255 gives its low 8 bits, the model's choice (log entry 7). -/
def Obligations.StepRunsDecodedCommand : Prop :=
  ∀ (s : State) (v : Nat) (rest : List Turn) (i : Instr),
    s.schedule = .host (.write 6 v) :: rest → s.state ≠ .busy → decode (BitVec.ofNat 8 v) = .ok i →
      step s = exec i { s with schedule := rest }

/-- Rule R96, for a write of any byte to CMD: the start check, then ERROR, DONE or BUSY. -/
def Obligations.CommandIssue : Prop :=
  ∀ (s : State) (c : Byte) (rest : List Turn), s.schedule = .host (.write 6 c.toNat) :: rest →
    (s.state = .busy → step s = .next { s with schedule := rest }) ∧
    (s.state ≠ .busy →
      (∀ code, startCheck c s.cfg.nwords s.params = some code →
        step s = .next { s with schedule := rest, state := .error, errCode := some code }) ∧
      (startCheck c s.cfg.nwords s.params = none →
        ((s.params.regionW = 0 ∨ s.params.regionH = 0) →
          step s = .next { s with
            schedule := rest
            errCode := none
            actOp := if c.getLsbD 0 = true then .dec else .enc
            actPred := 0#3
            state := .done }) ∧
        (¬ (s.params.regionW = 0 ∨ s.params.regionH = 0) →
          step s = .next { s with
            schedule := rest
            errCode := none
            actOp := if c.getLsbD 0 = true then .dec else .enc
            actPred := 0#3
            curX := s.params.originX
            curY := s.params.originY
            state := .busy })))

/-- Rule R136: the five conditions in their order, and what a pass guarantees for every cell of the region. -/
def Obligations.StartCheckOrder : Prop :=
  ∀ (c : Byte) (n : Nat) (p : Params),
    (c.extractLsb' 4 4 ≠ 0#4 → startCheck c n p = some .eCmd) ∧
    (c.extractLsb' 4 4 = 0#4 → c.extractLsb' 1 3 ≠ 0#3 → startCheck c n p = some .ePred) ∧
    (c.extractLsb' 4 4 = 0#4 → c.extractLsb' 1 3 = 0#3 → n < p.width * p.height → startCheck c n p = some .eSize) ∧
    (c.extractLsb' 4 4 = 0#4 → c.extractLsb' 1 3 = 0#3 → p.width * p.height ≤ n → p.width < p.originX + p.regionW →
      startCheck c n p = some .eRegionX) ∧
    (c.extractLsb' 4 4 = 0#4 → c.extractLsb' 1 3 = 0#3 → p.width * p.height ≤ n → p.originX + p.regionW ≤ p.width →
      p.height < p.originY + p.regionH → startCheck c n p = some .eRegionY) ∧
    (c.extractLsb' 4 4 = 0#4 → c.extractLsb' 1 3 = 0#3 → p.width * p.height ≤ n → p.originX + p.regionW ≤ p.width →
      p.originY + p.regionH ≤ p.height → startCheck c n p = none) ∧
    (startCheck c n p = none → ∀ x y, p.inRegion x y →
      x < p.width ∧ y < p.height ∧ y * p.width + x < p.width * p.height ∧ p.width * p.height ≤ n)

/-- Rules R137, R138: a byte that fails the start check changes STATUS and nothing else; so does a command. -/
def Obligations.FaultIsPrecise : Prop :=
  (∀ (c : Byte) (s : State) (code : FaultCode), s.state ≠ .busy →
    startCheck c s.cfg.nwords s.params = some code →
      commandByte c s = .next { s with state := .error, errCode := some code }) ∧
  (∀ (i : Instr) (s : State) (code : FaultCode), s.state ≠ .busy →
    startCheck (encode i) s.cfg.nwords s.params = some code →
      exec i s = .next { s with state := .error, errCode := some code })

/-- Rule R143: a rejected command ends in ERROR with its code, and the same command with the same registers faults again with
the same code; what a command does is the same in IDLE, DONE and ERROR, whatever `ERRCODE` held, so ERROR accepts the next
command as the others do and `STATE` and `ERRCODE` are overwritten. -/
def Obligations.RefaultsTheSame : Prop :=
  (∀ (i : Instr) (s : State) (code : FaultCode), s.state ≠ .busy →
    startCheck (encode i) s.cfg.nwords s.params = some code →
    ∃ t, exec i s = .next t ∧ t.state = .error ∧ t.errCode = some code ∧ exec i t = .next t) ∧
  (∀ (i : Instr) (s : State) (st : EngineState) (e : Option FaultCode), s.state ≠ .busy → st ≠ .busy →
    exec i { s with state := st, errCode := e } = exec i s)

/-- A command given to a BUSY engine has no effect (rules R14, R17). -/
def Obligations.CommandWhileBusyIgnored : Prop := ∀ (i : Instr) (s : State), s.state = .busy → exec i s = .next s

/-- Rule R107: a command on an empty region that passes the start check is DONE at issue, and changes neither buffer; an
empty region is still subject to the start check, and a raster without a cell forces an empty region. -/
def Obligations.EmptyRegionCommand : Prop :=
  (∀ (s : State), s.state ≠ .busy → s.params.accepted s.cfg.nwords →
    (s.params.regionW = 0 ∨ s.params.regionH = 0) →
    exec (.enc 0#3) s = .next { s with errCode := none, actOp := .enc, actPred := 0#3, state := .done } ∧
    exec (.dec 0#3) s = .next { s with errCode := none, actOp := .dec, actPred := 0#3, state := .done }) ∧
  (∀ (c : Byte) (n : Nat) (p : Params), startCheck c n p = none →
    p.originX ≤ p.width ∧ p.originY ≤ p.height ∧ (p.width = 0 → p.regionW = 0) ∧ (p.height = 0 → p.regionH = 0))

/-! ## Registers and STATUS -/

/-- Rule R17: what a read of every index answers, what a write of every index does, in every state (`received` is the
model's record of what reads answer, log entry 5). -/
def Obligations.RegisterAccess : Prop :=
  (∀ (s : State) (index : Nat) (rest : List Turn), s.schedule = .host (.read index) :: rest →
    step s = .next { s with
      schedule := rest
      received :=
        (if index = 0 then s.params.width else if index = 1 then s.params.height
        else if index = 2 then s.params.originX else if index = 3 then s.params.originY
        else if index = 4 then s.params.regionW else if index = 5 then s.params.regionH
        else if index = 7 then (statusByte s).toNat else 0) :: s.received }) ∧
  (∀ (s : State) (index v : Nat) (rest : List Turn), s.schedule = .host (.write index v) :: rest → s.state = .busy →
    step s = .next { s with schedule := rest }) ∧
  (∀ (s : State) (v : Nat) (rest : List Turn), s.state ≠ .busy → v < 2 ^ s.cfg.cw →
    (s.schedule = .host (.write 0 v) :: rest →
      step s = .next { s with schedule := rest, params := { s.params with width := v } }) ∧
    (s.schedule = .host (.write 1 v) :: rest →
      step s = .next { s with schedule := rest, params := { s.params with height := v } }) ∧
    (s.schedule = .host (.write 2 v) :: rest →
      step s = .next { s with schedule := rest, params := { s.params with originX := v } }) ∧
    (s.schedule = .host (.write 3 v) :: rest →
      step s = .next { s with schedule := rest, params := { s.params with originY := v } }) ∧
    (s.schedule = .host (.write 4 v) :: rest →
      step s = .next { s with schedule := rest, params := { s.params with regionW := v } }) ∧
    (s.schedule = .host (.write 5 v) :: rest →
      step s = .next { s with schedule := rest, params := { s.params with regionH := v } })) ∧
  (∀ (s : State) (c : Byte) (rest : List Turn), s.state ≠ .busy → s.schedule = .host (.write 6 c.toNat) :: rest →
    step s = commandByte c { s with schedule := rest }) ∧
  (∀ (s : State) (index v : Nat) (rest : List Turn), s.state ≠ .busy → 7 ≤ index →
    s.schedule = .host (.write index v) :: rest → step s = .next { s with schedule := rest })

/-- Rules R13, R56: the fields of STATUS, and the eight bytes a host can read in a state of the invariant. -/
def Obligations.StatusFormat : Prop :=
  (∀ s : State,
    (statusByte s).extractLsb' 0 2 =
      (match s.state with | .idle => 0#2 | .busy => 1#2 | .done => 2#2 | .error => 3#2) ∧
    (statusByte s).extractLsb' 2 2 = 0#2 ∧
    (statusByte s).extractLsb' 4 4 =
      (match s.errCode with
        | none => 0#4 | some .eCmd => 1#4 | some .ePred => 2#4 | some .eSize => 3#4 | some .eRegionX => 4#4
        | some .eRegionY => 5#4)) ∧
  (∀ s : State, s.Inv → statusByte s ∈ [0x00#8, 0x01#8, 0x02#8, 0x13#8, 0x23#8, 0x33#8, 0x43#8, 0x53#8]) ∧
  (∀ v ∈ [0x00#8, 0x01#8, 0x02#8, 0x13#8, 0x23#8, 0x33#8, 0x43#8, 0x53#8], ∃ s : State, s.Inv ∧ statusByte s = v)

/-- Rule R146's buffer moves of a host that owns the buffers: a write replaces one word of one buffer, a read changes
nothing but the record of answers (log entry 5). -/
def Obligations.HostBufferMoves : Prop :=
  ∀ (s : State) (i : Nat) (v : Word) (rest : List Turn), s.state ≠ .busy → i < s.cfg.nwords →
    (s.schedule = .host (.writeWord .src i v) :: rest →
      step s = .next { s with schedule := rest, src := s.src.write i v }) ∧
    (s.schedule = .host (.writeWord .dst i v) :: rest →
      step s = .next { s with schedule := rest, dst := s.dst.write i v }) ∧
    (s.schedule = .host (.readWord .src i) :: rest →
      step s = .next { s with schedule := rest, received := (s.src.read i).toNat :: s.received }) ∧
    (s.schedule = .host (.readWord .dst i) :: rest →
      step s = .next { s with schedule := rest, received := (s.dst.read i).toNat :: s.received })

/-- Rule R59's `WAIT`: it reads STATUS, and reads it again as long as the engine is BUSY (one turn of the engine between two
reads, log entry 8). -/
def Obligations.WaitReadsStatus : Prop :=
  ∀ (s : State) (rest : List Turn), s.schedule = .host .wait :: rest →
    (s.state ≠ .busy →
      step s = .next { s with schedule := rest, received := (statusByte s).toNat :: s.received }) ∧
    (s.state = .busy →
      step s = .next { s with
        schedule := .engine :: .host .wait :: rest
        received := (statusByte s).toNat :: s.received })

/-- Rule R14's transition table, and that STATE changes only as it says. -/
def Obligations.StateTransitions : Prop :=
  ∀ s t : State, s.Inv → step s = .next t →
    (s.schedule.head? = some (.host .reset) → t.state = .idle) ∧
    (∀ c : Byte, s.schedule.head? = some (.host (.write 6 c.toNat)) → s.state ≠ .busy →
      (∀ code, startCheck c s.cfg.nwords s.params = some code → t.state = .error ∧ t.errCode = some code) ∧
      (startCheck c s.cfg.nwords s.params = none →
        ((s.params.regionW = 0 ∨ s.params.regionH = 0) → t.state = .done) ∧
        (¬ (s.params.regionW = 0 ∨ s.params.regionH = 0) → t.state = .busy))) ∧
    (s.engineMoves → s.state = .busy →
      (s.curX + 1 = s.params.originX + s.params.regionW ∧ s.curY + 1 = s.params.originY + s.params.regionH →
        t.state = .done) ∧
      (¬ (s.curX + 1 = s.params.originX + s.params.regionW ∧ s.curY + 1 = s.params.originY + s.params.regionH) →
        t.state = .busy)) ∧
    (s.schedule.head? ≠ some (.host .reset) →
      (∀ v, s.schedule.head? = some (.host (.write 6 v)) → s.state = .busy) →
      ¬ (s.engineMoves ∧ s.state = .busy) → t.state = s.state)

/-- Rule R15: ERRCODE is written only when a command is issued (and by reset), and it is 0 exactly when STATE is not
ERROR. -/
def Obligations.ErrCodeWrites : Prop :=
  ∀ s t : State, step s = .next t →
    (∀ c : Byte, s.schedule.head? = some (.host (.write 6 c.toNat)) → s.state ≠ .busy →
      t.errCode = startCheck c s.cfg.nwords s.params) ∧
    (s.schedule.head? = some (.host .reset) → t.errCode = none) ∧
    (s.schedule.head? ≠ some (.host .reset) →
      (∀ v, s.schedule.head? = some (.host (.write 6 v)) → s.state = .busy) → t.errCode = s.errCode) ∧
    (s.Inv → (t.errCode = none ↔ t.state ≠ .error))

/-- Rule R16: the latched fields are written by an accepted command and held until the next one (a reset leaves them
unspecified, rule R155). -/
def Obligations.LatchedFieldsHeld : Prop :=
  ∀ s t : State, step s = .next t →
    (∀ c : Byte, s.schedule.head? = some (.host (.write 6 c.toNat)) → s.state ≠ .busy →
      startCheck c s.cfg.nwords s.params = none →
      t.actOp = (if c.getLsbD 0 = true then .dec else .enc) ∧ t.actPred = 0#3) ∧
    (s.schedule.head? ≠ some (.host .reset) →
      (∀ v, s.schedule.head? = some (.host (.write 6 v)) → s.state ≠ .busy →
        ∃ c : Byte, v = c.toNat ∧ startCheck c s.cfg.nwords s.params ≠ none) →
      t.actOp = s.actOp ∧ t.actPred = s.actPred)

/-- What no engine step and no command can change: parameter registers (rule R11), SRC (rule R34) and the machine's fixed
parameters; only a host's register write, a host's buffer move or a reset reaches them. -/
def Obligations.OnlyHostChangesParamsAndSrc : Prop :=
  ∀ s t : State, step s = .next t →
    t.cfg = s.cfg ∧
    (t.params ≠ s.params → s.schedule.head? = some (.host .reset) ∨
      (s.state ≠ .busy ∧ ∃ index v, index ≤ 5 ∧ s.schedule.head? = some (.host (.write index v)))) ∧
    (t.src ≠ s.src → s.state ≠ .busy ∧ ∃ i v, s.schedule.head? = some (.host (.writeWord .src i v)))

/-- The frame of the two commands at their issue: what neither changes, whatever the start check says. -/
def Obligations.CommandFrame : Prop :=
  ∀ (i : Instr) (s t : State), exec i s = .next t →
    t.cfg = s.cfg ∧ t.params = s.params ∧ t.src = s.src ∧ t.dst = s.dst ∧ t.schedule = s.schedule ∧
    t.received = s.received ∧ t.draws = s.draws ∧
    (t.state ≠ .busy → t.curX = s.curX ∧ t.curY = s.curY) ∧
    (t.state = .error → t.actOp = s.actOp ∧ t.actPred = s.actPred)

/-! ## Pixel arithmetic -/

/-- Rule R65's corner cases: packing the lanes of a word gives the word; a lane of a packed word is the value's low 8
bits, so nothing spills into a neighbouring lane. -/
def Obligations.LanesPackAndUnpack : Prop :=
  (∀ w : Word, pack4 (lane w 3).toNat (lane w 2).toNat (lane w 1).toNat (lane w 0).toNat = w) ∧
  (∀ b3 b2 b1 b0 : Nat,
    (lane (pack4 b3 b2 b1 b0) 3).toNat = b3 % 256 ∧ (lane (pack4 b3 b2 b1 b0) 2).toNat = b2 % 256 ∧
    (lane (pack4 b3 b2 b1 b0) 1).toNat = b1 % 256 ∧ (lane (pack4 b3 b2 b1 b0) 0).toNat = b0 % 256) ∧
  (∀ (w : Word) (k : Fin 4), lane w k = ((w >>> (8 * k.val)) &&& 0xFF#32).setWidth 8)

/-- Rule R70, the range invariant of `MED8`. -/
def Obligations.Med8Range : Prop :=
  ∀ a b c : Byte,
    min a.toNat (min b.toNat c.toNat) ≤ (med8 a b c).toNat ∧
    (med8 a b c).toNat ≤ max a.toNat (max b.toNat c.toNat)

/-- Rule R71, the three-way select form of `MED8`; in the third case the value lies strictly between `a` and `b`. -/
def Obligations.Med8SelectForm : Prop :=
  ∀ a b c : Byte,
    (max a.toNat b.toNat ≤ c.toNat → (med8 a b c).toNat = min a.toNat b.toNat) ∧
    (c.toNat ≤ min a.toNat b.toNat → (med8 a b c).toNat = max a.toNat b.toNat) ∧
    (¬ max a.toNat b.toNat ≤ c.toNat → ¬ c.toNat ≤ min a.toNat b.toNat →
      ((med8 a b c).toNat : Int) = (a.toNat : Int) + b.toNat - c.toNat ∧
      min a.toNat b.toNat < (med8 a b c).toNat ∧ (med8 a b c).toNat < max a.toNat b.toNat)

/-- Rules R85, R86: the residual and the reconstruction of a lane, modulo 256, never saturated. -/
def Obligations.ResidualOfLane : Prop :=
  ∀ s p : Byte,
    ((rsub8 s p).toNat : Int) = ((s.toNat : Int) - p.toNat) % 256 ∧ rsub8 s p = s - p ∧
    ((radd8 s p).toNat : Int) = ((s.toNat : Int) + p.toNat) % 256 ∧ radd8 s p = s + p

/-- Rules R87, R88: the packed operations work lane by lane, with no borrow or carry across lanes; their corner cases. -/
def Obligations.ResidualWordsByLane : Prop :=
  (∀ (w q : Word) (k : Fin 4), lane (rsub32 w q) k = rsub8 (lane w k) (lane q k)) ∧
  (∀ (w q : Word) (k : Fin 4), lane (radd32 w q) k = radd8 (lane w k) (lane q k)) ∧
  (∀ w : Word, rsub32 w 0#32 = w ∧ rsub32 w w = 0#32 ∧ radd32 w 0#32 = w ∧ radd32 0#32 w = w) ∧
  rsub32 0x00000000#32 0x01010101#32 = 0xFFFFFFFF#32 ∧ radd32 0xFFFFFFFF#32 0x01010101#32 = 0x00000000#32

/-- Rule R89, the inverse law of a lane, both ways. -/
def Obligations.ResidualInverseOfLane : Prop :=
  (∀ s p : Byte, radd8 (rsub8 s p) p = s) ∧ (∀ r p : Byte, rsub8 (radd8 r p) p = r)

/-- Rule R90, the inverse law of a word, both ways, and that both operations are bijections for a fixed prediction. -/
def Obligations.ResidualInverseOfWord : Prop :=
  (∀ w q : Word, radd32 (rsub32 w q) q = w) ∧ (∀ w q : Word, rsub32 (radd32 w q) q = w) ∧
  (∀ q : Word, Function.Bijective fun w => rsub32 w q) ∧ (∀ q : Word, Function.Bijective fun w => radd32 w q)

/-! ## Neighbours and predictions -/

/-- Rule R67: for a cell the start check accepts, the policy of rule R66 is that a neighbour is missing exactly when it
lies outside the raster, and the unsigned tests without subtraction say the same. -/
def Obligations.NeighbourPolicy : Prop :=
  ∀ (b : Memory) (w x y off : Nat), x < w → off = y * w + x →
    (nfetch b w x off).left = (if x = 0 then 0#32 else b.read (off - 1)) ∧
    (nfetch b w x off).up = (if y = 0 then 0#32 else b.read (off - w)) ∧
    (nfetch b w x off).upLeft = (if x = 0 ∨ y = 0 then 0#32 else b.read (off - w - 1)) ∧
    (off < w ↔ y = 0) ∧ ((x = 0 ∨ off < w + 1) ↔ (x = 0 ∨ y = 0)) ∧ ((x = 0 ∨ off < 1) ↔ x = 0)

/-- Rule R74, the shortcuts of row 0 and column 0, and the general case. -/
def Obligations.PredictionShortcuts : Prop :=
  ∀ (b : Memory) (w h x y off : Nat), x < w → off = y * w + x →
    (x = 0 → y = 0 → pred32 b w h x y off = 0x00000000#32) ∧
    (y = 0 → 0 < x → pred32 b w h x y off = b.read (off - 1)) ∧
    (x = 0 → 0 < y → pred32 b w h x y off = b.read (off - w)) ∧
    (0 < x → 0 < y → pred32 b w h x y off =
      pack4 (med8 (lane (b.read (off - 1)) 3) (lane (b.read (off - w)) 3) (lane (b.read (off - w - 1)) 3)).toNat
        (med8 (lane (b.read (off - 1)) 2) (lane (b.read (off - w)) 2) (lane (b.read (off - w - 1)) 2)).toNat
        (med8 (lane (b.read (off - 1)) 1) (lane (b.read (off - w)) 1) (lane (b.read (off - w - 1)) 1)).toNat
        (med8 (lane (b.read (off - 1)) 0) (lane (b.read (off - w)) 0) (lane (b.read (off - w - 1)) 0)).toNat)

/-- Rule R131: `PRED32` reads the buffer only at offsets smaller than the cell's own, and only at the cell's neighbours. -/
def Obligations.PredictionReadsEarlierCells : Prop :=
  (∀ (b b' : Memory) (w h x y : Nat), x < w → (∀ i, i < y * w + x → b.read i = b'.read i) →
    pred32 b w h x y (y * w + x) = pred32 b' w h x y (y * w + x)) ∧
  (∀ (b b' : Memory) (w h x y : Nat), x < w →
    (∀ x' y', isNeighbour x y x' y' → b.read (y' * w + x') = b'.read (y' * w + x')) →
    pred32 b w h x y (y * w + x) = pred32 b' w h x y (y * w + x))

/-- Rule R128: in column 0 the prediction is the word above and nothing else; the last pixel of the row before has no
influence when the raster is at least two cells wide. -/
def Obligations.LeftColumnLaw : Prop :=
  ∀ (n : Nat) (b : Memory) (w h y : Nat), b.wf n = true → 0 < w → 0 < y →
    pred32 b w h 0 y (y * w) = b.read ((y - 1) * w) ∧
    (2 ≤ w → ∀ v : Word, pred32 (b.write (y * w - 1) v) w h 0 y (y * w) = pred32 b w h 0 y (y * w))

/-! ## Memory -/

/-- Rules R33, R34: a read returns the word last written at its index; a write leaves every other word alone. -/
def Obligations.ReadAfterWrite : Prop :=
  ∀ (n : Nat) (m : Memory) (i j : Nat) (v : Word), m.wf n = true →
    (m.write i v).read j = if j = i then v else m.read j

/-- The canonical form: a write keeps it, and equal contents are equal data. -/
def Obligations.MemoryStaysCanonical : Prop :=
  (∀ (n : Nat) (m : Memory) (i : Nat) (v : Word), m.wf n = true → i < n → (m.write i v).wf n = true) ∧
  (∀ (n : Nat) (m m' : Memory), m.wf n = true → m'.wf n = true → (∀ i, i < n → m.read i = m'.read i) → m = m')

/-! ## One step of the engine -/

/-- Rule R100: a BUSY engine's turn processes the cell at the scan position, with the neighbours from SRC for an encode and
from DST for a decode, and then advances. -/
def Obligations.CellStep : Prop :=
  ∀ s : State, s.Inv → s.state = .busy → s.engineMoves →
    (s.actOp = .enc → step s = .next (advance { s.popTurn with
      dst := s.dst.write (s.curY * s.params.width + s.curX)
        (rsub32 (s.src.read (s.curY * s.params.width + s.curX))
          (pred32 s.src s.params.width s.params.height s.curX s.curY (s.curY * s.params.width + s.curX))) })) ∧
    (s.actOp = .dec → step s = .next (advance { s.popTurn with
      dst := s.dst.write (s.curY * s.params.width + s.curX)
        (radd32 (s.src.read (s.curY * s.params.width + s.curX))
          (pred32 s.dst s.params.width s.params.height s.curX s.curY (s.curY * s.params.width + s.curX))) }))

/-- The frame of a cell: which registers and which words of the buffers it leaves alone (rules R11, R34, R103). -/
def Obligations.CellFrame : Prop :=
  ∀ s t : State, s.Inv → s.state = .busy → s.engineMoves → step s = .next t →
    t.cfg = s.cfg ∧ t.params = s.params ∧ t.errCode = s.errCode ∧ t.actOp = s.actOp ∧ t.actPred = s.actPred ∧
    t.src = s.src ∧ t.received = s.received ∧ t.schedule = s.schedule.tail ∧
    (∀ i, i ≠ s.curY * s.params.width + s.curX → t.dst.read i = s.dst.read i)

/-- Rule R104: the three cases of ADVANCE. In the last one the scan position is unspecified, so nothing is said of it. -/
def Obligations.AdvanceMoves : Prop :=
  ∀ s : State,
    (s.curX + 1 < s.params.originX + s.params.regionW → advance s = { s with curX := s.curX + 1 }) ∧
    (¬ s.curX + 1 < s.params.originX + s.params.regionW → s.curY + 1 < s.params.originY + s.params.regionH →
      advance s = { s with curX := s.params.originX, curY := s.curY + 1 }) ∧
    (¬ s.curX + 1 < s.params.originX + s.params.regionW → ¬ s.curY + 1 < s.params.originY + s.params.regionH →
      (advance s).state = .done ∧ (advance s).cfg = s.cfg ∧ (advance s).params = s.params ∧
      (advance s).errCode = s.errCode ∧ (advance s).actOp = s.actOp ∧ (advance s).actPred = s.actPred ∧
      (advance s).src = s.src ∧ (advance s).dst = s.dst ∧ (advance s).schedule = s.schedule ∧
      (advance s).received = s.received)

/-- Rule R99: the linear offset, its bounds, and its incremental form at issue and at both moves of ADVANCE. -/
def Obligations.OffsetForms : Prop :=
  (∀ s : State, offset s = s.curY * s.params.width + s.curX) ∧
  (∀ s : State, s.Inv → s.state = .busy →
    offset s < s.params.width * s.params.height ∧ s.params.width * s.params.height ≤ s.cfg.nwords ∧
    (s.curX + 1 < s.params.originX + s.params.regionW → offset (advance s) = offset s + 1) ∧
    (s.curX + 1 = s.params.originX + s.params.regionW → s.curY + 1 < s.params.originY + s.params.regionH →
      offset (advance s) = offset s + (s.params.width - s.params.regionW + 1))) ∧
  (∀ (i : Instr) (s t : State), s.state ≠ .busy → exec i s = .next t → t.state = .busy →
    offset t = s.params.originY * s.params.width + s.params.originX)

/-- Rules R148, R155, log entry 4: when the engine is not BUSY its turn changes nothing. -/
def Obligations.IdleEngineWaits : Prop :=
  ∀ s : State, s.engineMoves → s.state ≠ .busy → step s = .next s.popTurn

/-! ## The invariant -/

/-- The invariant holds right after reset, for every choice of the OPEN parameters and every launch contents. -/
def Obligations.ResetMeetsInvariant : Prop :=
  State.reset.Inv ∧
  (∀ (cfg : Config) (src dst : Memory), cfg.wf = true → src.wf cfg.nwords = true → dst.wf cfg.nwords = true →
    (State.resetWith cfg src dst).Inv ∧ (State.resetWith cfg src dst).params = ⟨0, 0, 0, 0, 0, 0⟩ ∧
    (State.resetWith cfg src dst).state = .idle ∧ (State.resetWith cfg src dst).errCode = none ∧
    statusByte (State.resetWith cfg src dst) = 0x00#8 ∧ (State.resetWith cfg src dst).src = src ∧
    (State.resetWith cfg src dst).dst = dst)

/-- Every step of the machine, of either agent, keeps the invariant. -/
def Obligations.EveryStepKeepsInv : Prop := ∀ s t : State, s.Inv → step s = .next t → t.Inv

/-- Rules R110, R139: in a state of the invariant the engine's turn and every host action on registers answer a next state.
The host's buffer moves are refused while BUSY (entry U7), and otherwise answer a next state exactly at an index that
exists; that one which does not exist is the fault `noSuchWord` is the model's choice (log entry 12). -/
def Obligations.StepsNeverStick : Prop :=
  ∀ s : State, s.Inv →
    (s.engineMoves → ∃ t, step s = .next t) ∧
    (∀ a rest, s.schedule = .host a :: rest → a.onRegisters = true → ∃ t, step s = .next t) ∧
    (∀ b i v rest, s.schedule = .host (.writeWord b i v) :: rest ∨ s.schedule = .host (.readWord b i) :: rest →
      (s.state = .busy → step s = .refused (.bufferMoveWhileBusy b i)) ∧
      (s.state ≠ .busy → i < s.cfg.nwords → ∃ t, step s = .next t) ∧
      (s.state ≠ .busy → s.cfg.nwords ≤ i → step s = .fault (.noSuchWord b i)))

/-! ## Reset -/

/-- Rules R23, R155: what the reset event leaves, in any state. Nothing is said of the fields the rules leave
unspecified. -/
def Obligations.ResetEvent : Prop :=
  ∀ (s : State) (rest : List Turn), s.schedule = .host .reset :: rest →
    ∃ t, step s = .next t ∧ t.params = ⟨0, 0, 0, 0, 0, 0⟩ ∧ t.state = .idle ∧ t.errCode = none ∧ t.src = s.src ∧
      t.dst = s.dst ∧ t.cfg = s.cfg ∧ t.schedule = rest ∧ t.received = s.received

/-- Rule R156: a reset after `k` steps of a command leaves in DST the command's output on the first `k` cells of the scan
and the earlier contents on the rest; issuing the same command again gives the full result. -/
def Obligations.ResetWhileBusy : Prop :=
  ∀ (s : State) (k : Nat), s.ready → k < s.params.regionW * s.params.regionH →
    (∃ t u v t' u', exec (.enc 0#3) s = .next t ∧ run k t = .next u ∧ u.state = .busy ∧
      step { u with schedule := [.host .reset] } = .next v ∧ v.state = .idle ∧ v.params = ⟨0, 0, 0, 0, 0, 0⟩ ∧
      v.src = s.src ∧ v.dst = encCells s.params s.src ((regionCells s.params).take k) s.dst ∧
      exec (.enc 0#3) { v with params := s.params } = .next t' ∧
      run (s.params.regionW * s.params.regionH) t' = .next u' ∧ u'.state = .done ∧
      u'.dst = encLoop s.params s.src s.dst) ∧
    (∃ t u v t' u', exec (.dec 0#3) s = .next t ∧ run k t = .next u ∧ u.state = .busy ∧
      step { u with schedule := [.host .reset] } = .next v ∧ v.state = .idle ∧ v.params = ⟨0, 0, 0, 0, 0, 0⟩ ∧
      v.src = s.src ∧ v.dst = decCells s.params s.src ((regionCells s.params).take k) s.dst ∧
      exec (.dec 0#3) { v with params := s.params } = .next t' ∧
      run (s.params.regionW * s.params.regionH) t' = .next u' ∧ u'.state = .done ∧
      u'.dst = decLoop s.params s.src s.dst)

/-! ## Whole commands -/

/-- Rules R95, R97, R98: the list of cells the loops run over is the region, each cell once, in row-major order, and its
first cell is the region's origin. -/
def Obligations.ScanOrder : Prop :=
  ∀ p : Params,
    (∀ x y, (x, y) ∈ regionCells p ↔ p.inRegion x y) ∧
    (regionCells p).Pairwise (fun c d => c.2 < d.2 ∨ (c.2 = d.2 ∧ c.1 < d.1)) ∧
    (regionCells p).length = p.regionW * p.regionH ∧
    (0 < p.regionW → 0 < p.regionH → (regionCells p).head? = some (p.originX, p.originY))

/-- Rule R101: `ENC` answers a next state, runs one step for each cell of the region, ends DONE, and leaves in DST the
residual of every cell of the region and every other word as it was; nothing else but STATUS, the latched fields and the
scan position changes. -/
def Obligations.EncodeCommandRuns : Prop :=
  ∀ s : State, s.ready →
    ∃ t u, exec (.enc 0#3) s = .next t ∧
      (s.params.regionW ≠ 0 → s.params.regionH ≠ 0 →
        t = { s with
          errCode := none
          actOp := .enc
          actPred := 0#3
          curX := s.params.originX
          curY := s.params.originY
          state := .busy }) ∧
      run (s.params.regionW * s.params.regionH) t = .next u ∧
      u.state = .done ∧ u.errCode = none ∧ u.actOp = .enc ∧ u.actPred = 0#3 ∧ u.dst = encLoop s.params s.src s.dst ∧
      (∀ x y, s.params.inRegion x y →
        u.dst.read (y * s.params.width + x) =
          rsub32 (s.src.read (y * s.params.width + x))
            (pred32 s.src s.params.width s.params.height x y (y * s.params.width + x))) ∧
      (∀ i, (∀ x y, s.params.inRegion x y → i ≠ y * s.params.width + x) → u.dst.read i = s.dst.read i) ∧
      u.src = s.src ∧ u.params = s.params ∧ u.cfg = s.cfg ∧ u.schedule = s.schedule ∧ u.received = s.received

/-- Rule R102: `DEC` answers a next state, runs one step for each cell of the region, ends DONE, and leaves in DST what the
loop of rule R102 leaves; at every cell of the region that is the reconstruction from the neighbours as DST holds them in
the end (a neighbour is never written after it is read), and every other word is as it was. -/
def Obligations.DecodeCommandRuns : Prop :=
  ∀ s : State, s.ready →
    ∃ t u, exec (.dec 0#3) s = .next t ∧
      (s.params.regionW ≠ 0 → s.params.regionH ≠ 0 →
        t = { s with
          errCode := none
          actOp := .dec
          actPred := 0#3
          curX := s.params.originX
          curY := s.params.originY
          state := .busy }) ∧
      run (s.params.regionW * s.params.regionH) t = .next u ∧
      u.state = .done ∧ u.errCode = none ∧ u.actOp = .dec ∧ u.actPred = 0#3 ∧ u.dst = decLoop s.params s.src s.dst ∧
      (∀ x y, s.params.inRegion x y →
        u.dst.read (y * s.params.width + x) =
          radd32 (s.src.read (y * s.params.width + x))
            (pred32 u.dst s.params.width s.params.height x y (y * s.params.width + x))) ∧
      (∀ i, (∀ x y, s.params.inRegion x y → i ≠ y * s.params.width + x) → u.dst.read i = s.dst.read i) ∧
      u.src = s.src ∧ u.params = s.params ∧ u.cfg = s.cfg ∧ u.schedule = s.schedule ∧ u.received = s.received

/-- Rule R105: a command takes exactly `REGION_W * REGION_H` steps: before each of them it is BUSY at the next cell of the
scan, after the last it is DONE. -/
def Obligations.RunLength : Prop :=
  ∀ (s : State) (i : Instr), s.ready → i.wf = true →
    ∃ t, exec i s = .next t ∧
      (∀ k, k < s.params.regionW * s.params.regionH →
        ∃ u, run k t = .next u ∧ u.state = .busy ∧ (regionCells s.params)[k]? = some (u.curX, u.curY)) ∧
      (∃ u, run (s.params.regionW * s.params.regionH) t = .next u ∧ u.state = .done)

/-- Rule R120: the final DST depends on the command byte, the parameter registers and the contents of the buffers at issue
(of the machine's own fixed parameters too), and on nothing else of the state. -/
def Obligations.CommandDeterminism : Prop :=
  ∀ (s s' : State) (i : Instr), s.ready → s'.ready → i.wf = true → s'.cfg = s.cfg → s'.params = s.params →
    s'.src = s.src → s'.dst = s.dst →
    ∃ t t' u u', exec i s = .next t ∧ exec i s' = .next t' ∧
      run (s.params.regionW * s.params.regionH) t = .next u ∧ run (s.params.regionW * s.params.regionH) t' = .next u' ∧
      u.state = .done ∧ u'.state = .done ∧ u'.dst = u.dst

/-- Rule R121: when the region contains cell (0,0), the first step of `ENC` and of `DEC` writes `DST[0] = SRC[0]`. -/
def Obligations.BoundaryLaw : Prop :=
  ∀ (s : State) (i : Instr), s.ready → i.wf = true → s.params.inRegion 0 0 →
    ∃ t u, exec i s = .next t ∧ step t = .next u ∧ u.dst.read 0 = s.src.read 0

/-! ## Laws of whole commands -/

/-- Rule R122: decoding, over the whole raster, what an encode of the whole raster left gives the pixels back, whatever
either DST held. -/
def Obligations.RoundTripWholeRaster : Prop :=
  ∀ s : State, s.ready → s.params.full →
    ∃ t u, exec (.enc 0#3) s = .next t ∧ run (s.params.width * s.params.height) t = .next u ∧ u.state = .done ∧
      ∀ s' : State, s'.ready → s'.params = s.params → s'.src = u.dst →
        ∃ t' u', exec (.dec 0#3) s' = .next t' ∧ run (s.params.width * s.params.height) t' = .next u' ∧
          u'.state = .done ∧ ∀ i, i < s.params.width * s.params.height → u'.dst.read i = s.src.read i

/-- Rule R123: a decode of any accepted region gives the pixels back when SRC holds their residuals on the region and DST
holds them at the in-raster neighbours outside it; and which cells those neighbours are. -/
def Obligations.RoundTripOneRegion : Prop :=
  (∀ (s : State) (pix : Memory), s.ready → holdsResiduals s.params pix s.src → holdsBorder s.params pix s.dst →
    ∃ t u, exec (.dec 0#3) s = .next t ∧ run (s.params.regionW * s.params.regionH) t = .next u ∧ u.state = .done ∧
      ∀ x y, s.params.inRegion x y → u.dst.read (y * s.params.width + x) = pix.read (y * s.params.width + x)) ∧
  (∀ (p : Params) (x' y' : Nat), 0 < p.regionW → 0 < p.regionH →
    ((∃ x y, p.inRegion x y ∧ isNeighbour x y x' y' ∧ ¬ p.inRegion x' y') ↔
      (x' + 1 = p.originX ∧ p.originY - 1 ≤ y' ∧ y' < p.originY + p.regionH) ∨
      (y' + 1 = p.originY ∧ p.originX - 1 ≤ x' ∧ x' < p.originX + p.regionW)))

/-- Rule R130, the converse of rule R122: encoding, over the whole raster, what a decode of the whole raster left gives the
residuals back; and a residual buffer is that of at most one pixel buffer (of at least one, by the first part). -/
def Obligations.EncodeOfDecodedRaster : Prop :=
  (∀ s : State, s.ready → s.params.full →
    ∃ t u, exec (.dec 0#3) s = .next t ∧ run (s.params.width * s.params.height) t = .next u ∧ u.state = .done ∧
      ∀ s' : State, s'.ready → s'.params = s.params → s'.src = u.dst →
        ∃ t' u', exec (.enc 0#3) s' = .next t' ∧ run (s.params.width * s.params.height) t' = .next u' ∧
          u'.state = .done ∧ ∀ i, i < s.params.width * s.params.height → u'.dst.read i = s.src.read i) ∧
  (∀ (n : Nat) (p : Params) (pix pix' r : Memory), p.accepted n → p.full → holdsResiduals p pix r →
    holdsResiduals p pix' r → ∀ i, i < p.width * p.height → pix.read i = pix'.read i)

/-- Rule R124: regions of one raster that cover it, decoded one after the other so that each comes after every region with
a cell it needs, leave the pixels on the whole raster. -/
def Obligations.TiledDecode : Prop :=
  ∀ (n w h : Nat) (pix r d : Memory) (gs : List Params), d.wf n = true →
    (∀ g ∈ gs, g.width = w ∧ g.height = h ∧ g.accepted n ∧ holdsResiduals g pix r) →
    (∀ x y, x < w → y < h → ∃ g ∈ gs, g.inRegion x y) →
    gs.Pairwise (fun g g' => ∀ x y, ¬ (g.inRegion x y ∧ g'.inRegion x y)) →
    (∀ pre g post, gs = pre ++ g :: post → ∀ x y x' y', g.inRegion x y → isNeighbour x y x' y' →
      ¬ g.inRegion x' y' → ∃ g' ∈ pre, g'.inRegion x' y') →
    ∀ x y, x < w → y < h → (gs.foldl (fun d g => decLoop g r d) d).read (y * w + x) = pix.read (y * w + x)

/-- Rule R126 (and R125 for the order of the tiles): sub-regions that make up a region, encoded in any order, leave the DST
of one encode of the whole region. -/
def Obligations.TiledEncode : Prop :=
  ∀ (n : Nat) (p : Params) (src d : Memory) (gs : List Params), p.accepted n → d.wf n = true →
    (∀ g ∈ gs, g.width = p.width ∧ g.height = p.height ∧ g.accepted n ∧ ∀ x y, g.inRegion x y → p.inRegion x y) →
    (∀ x y, p.inRegion x y → ∃ g ∈ gs, g.inRegion x y) →
    gs.foldl (fun d g => encLoop g src d) d = encLoop p src d

/-- Rules R43, R125: the cells of an encode may be processed in any order. -/
def Obligations.EncodeOrderFree : Prop :=
  ∀ (n : Nat) (p : Params) (src d : Memory) (cells : List (Nat × Nat)), p.accepted n → d.wf n = true →
    cells.Perm (regionCells p) → encCells p src cells d = encLoop p src d

/-- Rule R127: lane `k` of every word a command writes depends only on lane `k` of the words it reads, and in the same way
for every lane, so that lane `k` of one pair of buffers may be held against lane `k'` of another (with one buffer for both,
a value replicated across lanes stays replicated). The words an encode reads are SRC's at the region's cells and at their
in-raster neighbours; those a decode reads are SRC's at the region's cells and DST's at the neighbours outside the region,
and the words it has written itself. -/
def Obligations.LaneIndependence : Prop :=
  ∀ (n : Nat) (p : Params) (k k' : Fin 4) (src src' d d' : Memory), p.accepted n → d.wf n = true → d'.wf n = true →
    (∀ x y, p.inRegion x y → lane (src.read (p.cellOffset x y)) k = lane (src'.read (p.cellOffset x y)) k') →
    ((∀ x y x' y', p.inRegion x y → isNeighbour x y x' y' →
        lane (src.read (p.cellOffset x' y')) k = lane (src'.read (p.cellOffset x' y')) k') →
      ∀ x y, p.inRegion x y →
        lane ((encLoop p src d).read (p.cellOffset x y)) k = lane ((encLoop p src' d').read (p.cellOffset x y)) k') ∧
    ((∀ x y x' y', p.inRegion x y → isNeighbour x y x' y' → ¬ p.inRegion x' y' →
        lane (d.read (p.cellOffset x' y')) k = lane (d'.read (p.cellOffset x' y')) k') →
      ∀ x y, p.inRegion x y →
        lane ((decLoop p src d).read (p.cellOffset x y)) k = lane ((decLoop p src' d').read (p.cellOffset x y)) k')

/-- Rule R129: the first row, the first column and the first cell of a whole-raster encode. -/
def Obligations.FirstRowAndColumn : Prop :=
  ∀ (n : Nat) (p : Params) (src d : Memory), p.accepted n → p.full → d.wf n = true →
    (0 < p.width → 0 < p.height → (encLoop p src d).read 0 = src.read 0) ∧
    (∀ x, 0 < x → x < p.width → 0 < p.height →
      (encLoop p src d).read x = rsub32 (src.read x) (src.read (x - 1))) ∧
    (∀ y, 0 < y → y < p.height → 0 < p.width →
      (encLoop p src d).read (y * p.width) = rsub32 (src.read (y * p.width)) (src.read ((y - 1) * p.width)))

/-- Rule R108: which regions are self-contained, and that the result of a decode of one on its own cells does not depend on
what DST held (rule R103). -/
def Obligations.SelfContainedRegions : Prop :=
  ∀ (n : Nat) (p : Params), p.accepted n →
    ((∀ x y x' y', p.inRegion x y → isNeighbour x y x' y' → p.inRegion x' y') ↔
      (p.regionW = 0 ∨ p.regionH = 0 ∨ (p.originX = 0 ∧ p.originY = 0))) ∧
    (p.originX = 0 → p.originY = 0 → ∀ src d d' : Memory, d.wf n = true → d'.wf n = true →
      ∀ x y, p.inRegion x y →
        (decLoop p src d).read (p.cellOffset x y) = (decLoop p src d').read (p.cellOffset x y))

/-- Rule R109: the residuals of a partial-region encode are those a whole-raster encode writes at the same cells. -/
def Obligations.PartialRegionEncode : Prop :=
  ∀ (n : Nat) (p : Params) (src d d' : Memory), p.accepted n → d.wf n = true → d'.wf n = true →
    ∀ x y, p.inRegion x y →
      (encLoop p src d).read (p.cellOffset x y) =
        (encLoop { p with originX := 0, originY := 0, regionW := p.width, regionH := p.height } src d').read
          (p.cellOffset x y)

/-- Rules R60, R161: the pseudo-commands `ENCODE_REGION` and `DECODE_REGION`, from any state that is not BUSY, end with the
command done and STATUS read as DONE. The number of steps is this model's (one poll of `WAIT` a cell, log entry 8). -/
def Obligations.PseudoCommands : Prop :=
  ∀ (s : State) (w h ox oy rw rh : Nat), s.Inv → s.state ≠ .busy →
    Params.fits s.cfg.cw ⟨w, h, ox, oy, rw, rh⟩ → Params.accepted s.cfg.nwords ⟨w, h, ox, oy, rw, rh⟩ →
    (s.schedule = hostTurns (encodeRegion w h ox oy rw rh) →
      ∃ u, run (8 + 2 * (rw * rh)) s = .next u ∧ u.state = .done ∧ u.schedule = [] ∧
        u.params = ⟨w, h, ox, oy, rw, rh⟩ ∧ u.received.head? = some 0x02 ∧ u.src = s.src ∧
        u.dst = encLoop ⟨w, h, ox, oy, rw, rh⟩ s.src s.dst) ∧
    (s.schedule = hostTurns (decodeRegion w h ox oy rw rh) →
      ∃ u, run (8 + 2 * (rw * rh)) s = .next u ∧ u.state = .done ∧ u.schedule = [] ∧
        u.params = ⟨w, h, ox, oy, rw, rh⟩ ∧ u.received.head? = some 0x02 ∧ u.src = s.src ∧
        u.dst = decLoop ⟨w, h, ox, oy, rw, rh⟩ s.src s.dst)
end

