-- ==== Sys2Proof/Laws/Lanes.lean ====
section
/-! SUPPORT. Lanes and packed words; the residual arithmetic; the range of the predictor; what a prediction reads. -/

namespace Sys2Proof.Machine

/-! ## Lanes -/

theorem getLsbD_packLanes (f : Fin 4 → Byte) (i : Nat) :
    (packLanes f).getLsbD i =
      if i < 8 then (f 0).getLsbD i
      else if i < 16 then (f 1).getLsbD (i - 8)
      else if i < 24 then (f 2).getLsbD (i - 16)
      else (f 3).getLsbD (i - 24) := by
  unfold packLanes pack4
  simp only [BitVec.ofNat_toNat, BitVec.setWidth_eq]
  change (f 3 ++ f 2 ++ f 1 ++ f 0).getLsbD i = _
  rw [BitVec.getLsbD_append, BitVec.getLsbD_append, BitVec.getLsbD_append, Nat.sub_sub, Nat.sub_sub]
  by_cases h8 : i < 8
  · rw [if_pos h8, if_pos h8]
  · by_cases h16 : i < 16
    · rw [if_neg h8, if_neg h8, if_pos (by omega), if_pos h16]
    · by_cases h24 : i < 24
      · rw [if_neg h8, if_neg h8, if_neg (by omega), if_neg h16, if_pos (by omega), if_pos h24]
      · rw [if_neg h8, if_neg h8, if_neg (by omega), if_neg h16, if_neg (by omega), if_neg h24]

theorem lane_packLanes (f : Fin 4 → Byte) (k : Fin 4) : lane (packLanes f) k = f k := by
  apply BitVec.eq_of_getLsbD_eq
  intro i hi
  have h : ∀ n, 8 * n + i - 8 * n = i := fun n => by omega
  rw [lane, BitVec.getLsbD_extractLsb', getLsbD_packLanes]
  fin_cases k <;> simp [hi] <;> grind

/-- Two words with equal lanes are equal. -/
theorem word_ext {v w : Word} (h : ∀ k, lane v k = lane w k) : v = w := by
  apply BitVec.eq_of_getLsbD_eq
  intro i hi
  have hk := congrArg (fun b : Byte => b.getLsbD (i % 8)) (h ⟨i / 8, by omega⟩)
  simpa [lane, BitVec.getLsbD_extractLsb', Nat.mod_lt, Nat.div_add_mod] using hk

theorem packLanes_lane (w : Word) : packLanes (lane w) = w := word_ext fun k => lane_packLanes _ k

theorem packLanes_congr {f g : Fin 4 → Byte} (h : ∀ k, f k = g k) : packLanes f = packLanes g := by
  rw [funext h]

theorem lane_zero (k : Fin 4) : lane 0#32 k = 0#8 := by simp [lane]

/-! ## The residual arithmetic -/

theorem rsub8_eq (s p : Byte) : rsub8 s p = s - p := by
  apply BitVec.eq_of_toNat_eq
  have hs := s.isLt
  have hp := p.isLt
  rw [rsub8, BitVec.toNat_ofInt, BitVec.toNat_sub]
  omega

theorem radd8_eq (r p : Byte) : radd8 r p = r + p := by
  apply BitVec.eq_of_toNat_eq
  have hr := r.isLt
  have hp := p.isLt
  rw [radd8, BitVec.toNat_ofInt, BitVec.toNat_add]
  omega

theorem radd8_rsub8 (s p : Byte) : radd8 (rsub8 s p) p = s := by
  rw [radd8_eq, rsub8_eq, BitVec.sub_add_cancel]

theorem rsub8_radd8 (r p : Byte) : rsub8 (radd8 r p) p = r := by
  rw [radd8_eq, rsub8_eq, BitVec.add_sub_cancel]

theorem lane_rsub32 (w q : Word) (k : Fin 4) : lane (rsub32 w q) k = rsub8 (lane w k) (lane q k) :=
  lane_packLanes _ k

theorem lane_radd32 (w q : Word) (k : Fin 4) : lane (radd32 w q) k = radd8 (lane w k) (lane q k) :=
  lane_packLanes _ k

theorem radd32_rsub32 (w q : Word) : radd32 (rsub32 w q) q = w :=
  word_ext fun k => by rw [lane_radd32, lane_rsub32, radd8_rsub8]

theorem rsub32_radd32 (w q : Word) : rsub32 (radd32 w q) q = w :=
  word_ext fun k => by rw [lane_rsub32, lane_radd32, rsub8_radd8]

theorem rsub32_zero (w : Word) : rsub32 w 0#32 = w :=
  word_ext fun k => by rw [lane_rsub32, lane_zero, rsub8_eq, BitVec.sub_zero]

theorem radd32_zero (w : Word) : radd32 w 0#32 = w :=
  word_ext fun k => by rw [lane_radd32, lane_zero, radd8_eq, BitVec.add_zero]

/-! ## The predictor of one lane -/

/-- The clamped sum as an integer: `MED8` narrows it without loss, since it lies between two samples. -/
theorem med8_toNat (a b c : Byte) :
    ((med8 a b c).toNat : Int) = clamp ((a.toNat : Int) + b.toNat - c.toNat) (min3 a b c) (max3 a b c) := by
  have ha := a.isLt
  have hb := b.isLt
  have hc := c.isLt
  have h0 : 0 ≤ clamp ((a.toNat : Int) + b.toNat - c.toNat) (min3 a b c) (max3 a b c) := by
    unfold clamp min3 max3
    split <;> [omega; split <;> omega]
  have h1 : clamp ((a.toNat : Int) + b.toNat - c.toNat) (min3 a b c) (max3 a b c) < 256 := by
    unfold clamp min3 max3
    split <;> [omega; split <;> omega]
  unfold med8
  rw [BitVec.toNat_ofInt]
  omega

/-- `MED8(a, 0, 0) = a` (rule R68). -/
theorem med8_left (a : Byte) : med8 a 0#8 0#8 = a := by
  apply BitVec.eq_of_toNat_eq
  have h := med8_toNat a 0#8 0#8
  have ha := a.isLt
  simp only [clamp, min3, max3, BitVec.toNat_ofNat] at h
  split at h <;> [omega; split at h <;> omega]

/-- `MED8(0, b, 0) = b` (rule R68). -/
theorem med8_up (b : Byte) : med8 0#8 b 0#8 = b := by
  apply BitVec.eq_of_toNat_eq
  have h := med8_toNat 0#8 b 0#8
  have hb := b.isLt
  simp only [clamp, min3, max3, BitVec.toNat_ofNat] at h
  split at h <;> [omega; split at h <;> omega]

/-! ## What a prediction reads -/

theorem neighbourAt_congr {b b' : Memory} {off : Int} (h : 0 ≤ off → b.read off.toNat = b'.read off.toNat) :
    neighbourAt b off = neighbourAt b' off := by
  unfold neighbourAt
  split
  · rfl
  · exact h (by omega)

/-- The neighbours are those of rule R67: they depend only on the left, up and up-left cells, where these exist. -/
theorem nfetch_eq (b : Memory) {w x y : Nat} (hx : x < w) :
    nfetch b w x (y * w + x) =
      { left := if x = 0 then 0#32 else b.read (y * w + (x - 1))
        up := if y = 0 then 0#32 else b.read ((y - 1) * w + x)
        upLeft := if x = 0 ∨ y = 0 then 0#32 else b.read ((y - 1) * w + (x - 1)) } := by
  have hy : y ≠ 0 → y * w = (y - 1) * w + w := fun hy => by
    obtain ⟨z, rfl⟩ := Nat.exists_eq_succ_of_ne_zero hy
    simp [Nat.succ_mul]
  unfold nfetch neighbourAt
  simp only [Neighbours.mk.injEq]
  refine ⟨?_, ?_, ?_⟩
  · by_cases hx0 : x = 0
    · simp [hx0]
    · rw [if_neg hx0, if_neg hx0, if_neg (by omega)]
      congr 1
      omega
  · by_cases hy0 : y = 0
    · subst hy0
      rw [if_pos (by omega), if_pos rfl]
    · have := hy hy0
      rw [if_neg (by omega), if_neg hy0]
      congr 1
      omega
  · by_cases hx0 : x = 0
    · simp [hx0]
    · by_cases hy0 : y = 0
      · subst hy0
        rw [if_neg hx0, if_pos (by omega), if_pos (Or.inr rfl)]
      · have := hy hy0
        rw [if_neg hx0, if_neg (by omega), if_neg (by omega)]
        congr 1
        omega

/-- A prediction depends on the neighbour cells only (rules R73, R131). -/
theorem pred32_congr {b b' : Memory} {w h x y : Nat} (hx : x < w)
    (hl : x ≠ 0 → b.read (y * w + (x - 1)) = b'.read (y * w + (x - 1)))
    (hu : y ≠ 0 → b.read ((y - 1) * w + x) = b'.read ((y - 1) * w + x))
    (hul : x ≠ 0 → y ≠ 0 → b.read ((y - 1) * w + (x - 1)) = b'.read ((y - 1) * w + (x - 1))) :
    pred32 b w h x y (y * w + x) = pred32 b' w h x y (y * w + x) := by
  have hn : nfetch b w x (y * w + x) = nfetch b' w x (y * w + x) := by
    rw [nfetch_eq b hx, nfetch_eq b' hx]
    by_cases hx0 : x = 0 <;> by_cases hy0 : y = 0 <;> simp_all
  unfold pred32
  rw [hn]

end Sys2Proof.Machine
end

