-- ==== Sys2Proof/Laws/Memory.lean ====
section
/-! SUPPORT. What the buffer memories do: the canonical form is kept, a read after a write, equal reads mean equal
memories. -/

namespace Sys2Proof.Machine

@[simp] theorem Memory.read_nil (i : Nat) : Memory.read [] i = Memory.unlisted := rfl

theorem Memory.read_cons (j : Nat) (w : Word) (m : Memory) (i : Nat) :
    Memory.read ((j, w) :: m) i = if j = i then w else Memory.read m i := rfl

theorem Memory.wfFrom_cons {lo hi j : Nat} {w : Word} {m : Memory} :
    Memory.wfFrom lo hi ((j, w) :: m) = true ↔
      lo ≤ j ∧ j < hi ∧ w ≠ Memory.unlisted ∧ Memory.wfFrom (j + 1) hi m = true := by
  simp [Memory.wfFrom, and_assoc]

/-- The canonical form from a bound is the canonical form from any lower bound. -/
theorem Memory.wfFrom_mono {lo lo' hi : Nat} {m : Memory} (h : Memory.wfFrom lo hi m = true) (hl : lo' ≤ lo) :
    Memory.wfFrom lo' hi m = true := by
  cases m with
  | nil => rfl
  | cons c rest =>
    obtain ⟨j, w⟩ := c
    rw [Memory.wfFrom_cons] at h ⊢
    exact ⟨hl.trans h.1, h.2⟩

/-- Below its first index a canonical memory lists nothing. -/
theorem Memory.read_below {lo hi i : Nat} {m : Memory} (h : Memory.wfFrom lo hi m = true) (hi' : i < lo) :
    Memory.read m i = Memory.unlisted := by
  induction m generalizing lo with
  | nil => rfl
  | cons c rest ih =>
    obtain ⟨j, w⟩ := c
    rw [Memory.wfFrom_cons] at h
    rw [Memory.read_cons, if_neg (by omega)]
    exact ih h.2.2.2 (by omega)

/-- At or above its bound a canonical memory lists nothing. -/
theorem Memory.read_above {lo hi i : Nat} {m : Memory} (h : Memory.wfFrom lo hi m = true) (hi' : hi ≤ i) :
    Memory.read m i = Memory.unlisted := by
  induction m generalizing lo with
  | nil => rfl
  | cons c rest ih =>
    obtain ⟨j, w⟩ := c
    rw [Memory.wfFrom_cons] at h
    rw [Memory.read_cons, if_neg (by omega)]
    exact ih h.2.2.2

theorem Memory.read_consCell {lo hi i j : Nat} {v : Word} {m : Memory} (h : Memory.wfFrom lo hi m = true) (hi' : i < lo) :
    Memory.read (Memory.consCell i v m) j = if j = i then v else Memory.read m j := by
  unfold Memory.consCell
  split
  · next hv =>
    split
    · next hj => rw [hj, Memory.read_below h hi', hv]
    · rfl
  · rw [Memory.read_cons]
    simp only [eq_comm]

theorem Memory.wfFrom_consCell {lo hi i : Nat} {v : Word} {m : Memory} (h : Memory.wfFrom (i + 1) hi m = true)
    (hlo : lo ≤ i) (hhi : i < hi) : Memory.wfFrom lo hi (Memory.consCell i v m) = true := by
  unfold Memory.consCell
  split
  · exact Memory.wfFrom_mono h (by omega)
  · next hv => exact Memory.wfFrom_cons.mpr ⟨hlo, hhi, hv, h⟩

/-- A read after a write: the written word at its index, the word before everywhere else. -/
theorem Memory.read_write_from {lo hi i j : Nat} {v : Word} {m : Memory} (h : Memory.wfFrom lo hi m = true) :
    Memory.read (Memory.write m i v) j = if j = i then v else Memory.read m j := by
  induction m generalizing lo with
  | nil => exact Memory.read_consCell (lo := i + 1) (hi := hi) (m := []) rfl (by omega)
  | cons c rest ih =>
    obtain ⟨k, w⟩ := c
    have hc := Memory.wfFrom_cons.mp h
    unfold Memory.write
    split
    · next hik => exact Memory.read_consCell (Memory.wfFrom_cons.mpr ⟨le_refl k, hc.2⟩) hik
    · split
      · next hik =>
        subst hik
        rw [Memory.read_consCell hc.2.2.2 (by omega), Memory.read_cons]
        split
        · rfl
        · rw [if_neg (by omega)]
      · next hne =>
        rw [Memory.read_cons, Memory.read_cons, ih hc.2.2.2]
        by_cases hkj : k = j
        · rw [if_pos hkj, if_pos hkj, if_neg (by omega)]
        · rw [if_neg hkj, if_neg hkj]

theorem Memory.wfFrom_write {lo hi i : Nat} {v : Word} {m : Memory} (h : Memory.wfFrom lo hi m = true) (hlo : lo ≤ i)
    (hhi : i < hi) : Memory.wfFrom lo hi (Memory.write m i v) = true := by
  induction m generalizing lo with
  | nil => exact Memory.wfFrom_consCell rfl hlo hhi
  | cons c rest ih =>
    obtain ⟨k, w⟩ := c
    have hc := Memory.wfFrom_cons.mp h
    unfold Memory.write
    split
    · next hik => exact Memory.wfFrom_consCell (Memory.wfFrom_cons.mpr ⟨hik, hc.2⟩) hlo hhi
    · split
      · next hik => subst hik; exact Memory.wfFrom_consCell hc.2.2.2 hlo hhi
      · exact Memory.wfFrom_cons.mpr ⟨hc.1, hc.2.1, hc.2.2.1, ih hc.2.2.2 (by omega)⟩

theorem Memory.ext_from {lo lo' hi hi' : Nat} {m m' : Memory} (h : Memory.wfFrom lo hi m = true)
    (h' : Memory.wfFrom lo' hi' m' = true) (hr : ∀ i, Memory.read m i = Memory.read m' i) : m = m' := by
  induction m generalizing lo lo' m' with
  | nil =>
    cases m' with
    | nil => rfl
    | cons c rest =>
      obtain ⟨k, w⟩ := c
      have hc := Memory.wfFrom_cons.mp h'
      have := hr k
      rw [Memory.read_cons, if_pos rfl] at this
      exact absurd this.symm hc.2.2.1
  | cons c rest ih =>
    obtain ⟨k, w⟩ := c
    have hc := Memory.wfFrom_cons.mp h
    cases m' with
    | nil =>
      have := hr k
      rw [Memory.read_cons, if_pos rfl] at this
      exact absurd this hc.2.2.1
    | cons c' rest' =>
      obtain ⟨k', w'⟩ := c'
      have hc' := Memory.wfFrom_cons.mp h'
      have hk := hr k
      have hk' := hr k'
      simp only [Memory.read_cons, if_true] at hk hk'
      have hkk : k = k' := by
        rcases Nat.lt_trichotomy k k' with hlt | heq | hgt
        · rw [if_neg (by omega), Memory.read_below hc'.2.2.2 (by omega)] at hk
          exact absurd hk hc.2.2.1
        · exact heq
        · rw [if_neg (by omega), Memory.read_below hc.2.2.2 (by omega)] at hk'
          exact absurd hk'.symm hc'.2.2.1
      subst hkk
      rw [if_pos rfl] at hk
      subst hk
      rw [ih hc.2.2.2 hc'.2.2.2 ?_]
      intro i
      by_cases hik : i < k + 1
      · rw [Memory.read_below hc.2.2.2 hik, Memory.read_below hc'.2.2.2 hik]
      · have := hr i
        rwa [Memory.read_cons, Memory.read_cons, if_neg (by omega), if_neg (by omega)] at this

/-! ## The same facts about a buffer of `n` words -/

theorem Memory.wf_nil (n : Nat) : Memory.wf n [] = true := rfl

theorem Memory.read_write {n i j : Nat} {v : Word} {m : Memory} (h : Memory.wf n m = true) :
    Memory.read (Memory.write m i v) j = if j = i then v else Memory.read m j := Memory.read_write_from h

theorem Memory.read_write_same {n i : Nat} {v : Word} {m : Memory} (h : Memory.wf n m = true) :
    Memory.read (Memory.write m i v) i = v := by rw [Memory.read_write h, if_pos rfl]

theorem Memory.read_write_other {n i j : Nat} {v : Word} {m : Memory} (h : Memory.wf n m = true) (hne : j ≠ i) :
    Memory.read (Memory.write m i v) j = Memory.read m j := by rw [Memory.read_write h, if_neg hne]

theorem Memory.wf_write {n i : Nat} {v : Word} {m : Memory} (h : Memory.wf n m = true) (hi : i < n) :
    Memory.wf n (Memory.write m i v) = true := Memory.wfFrom_write h (Nat.zero_le i) hi

theorem Memory.ext_wf {n n' : Nat} {m m' : Memory} (h : Memory.wf n m = true) (h' : Memory.wf n' m' = true)
    (hr : ∀ i, Memory.read m i = Memory.read m' i) : m = m' := Memory.ext_from h h' hr

end Sys2Proof.Machine
end

