-- ==== Sys2Proof/Laws/Region.lean ====
section
/-! SUPPORT. The region's cells and their offsets; what the loops of the two commands leave in DST. -/

namespace Sys2Proof.Machine

/-! ## Offsets -/

/-- Cells of the raster with one offset are one cell (rule R32). -/
theorem cellOffset_inj {p : Params} {x y x' y' : Nat} (hx : x < p.width) (hx' : x' < p.width)
    (h : p.cellOffset x y = p.cellOffset x' y') : x = x' ∧ y = y' := by
  unfold Params.cellOffset at h
  have hm := congrArg (· % p.width) h
  have hd := congrArg (· / p.width) h
  have hw : 0 < p.width := by omega
  simp only [Nat.mul_add_mod_self_right, Nat.mod_eq_of_lt hx, Nat.mod_eq_of_lt hx'] at hm
  simp only [Nat.add_div hw, Nat.mul_div_cancel _ hw, Nat.div_eq_of_lt hx, Nat.div_eq_of_lt hx',
    Nat.mul_mod_left, Nat.mod_eq_of_lt hx, Nat.mod_eq_of_lt hx', Nat.zero_add, Nat.not_le.mpr hx, Nat.not_le.mpr hx',
    if_false, Nat.add_zero] at hd
  exact ⟨hm, hd⟩

/-- The offset of a cell of the raster is below the raster's size (rules R32, R136). -/
theorem cellOffset_lt {p : Params} {x y : Nat} (h : p.inRaster x y) : p.cellOffset x y < p.rasterSize := by
  unfold Params.cellOffset Params.rasterSize
  have h1 : (y + 1) * p.width ≤ p.height * p.width := Nat.mul_le_mul_right _ h.2
  have h2 := h.1
  rw [Nat.add_mul, Nat.one_mul, Nat.mul_comm p.height] at h1
  omega

/-- Rows before and columns before have smaller offsets (rule R97). -/
theorem cellOffset_lt_of_row {p : Params} {x y x' y' : Nat} (hx : x < p.width) (h : y < y') :
    p.cellOffset x y < p.cellOffset x' y' := by
  unfold Params.cellOffset
  have h1 : (y + 1) * p.width ≤ y' * p.width := Nat.mul_le_mul_right _ h
  rw [Nat.add_mul, Nat.one_mul] at h1
  omega

/-- A cell of an accepted region is in the raster (rules R95, R136). -/
theorem inRaster_of_inRegion {p : Params} {n x y : Nat} (ha : p.accepted n) (h : p.inRegion x y) : p.inRaster x y := by
  obtain ⟨-, h1, h2⟩ := ha
  unfold Params.regionRight at h1
  unfold Params.regionBottom at h2
  obtain ⟨-, h3, -, h4⟩ := h
  exact ⟨by omega, by omega⟩

theorem cellOffset_lt_nwords {p : Params} {n x y : Nat} (ha : p.accepted n) (h : p.inRegion x y) :
    p.cellOffset x y < n :=
  lt_of_lt_of_le (cellOffset_lt (inRaster_of_inRegion ha h)) ha.1

/-- A neighbour precedes its cell in the buffer (rules R42, R103). -/
theorem cellOffset_neighbour_lt {p : Params} {x y x' y' : Nat} (hx : x < p.width) (h : isNeighbour x y x' y') :
    p.cellOffset x' y' < p.cellOffset x y := by
  rcases h with ⟨h1, h2⟩ | ⟨h1, h2⟩ | ⟨h1, h2⟩
  · subst h2
    unfold Params.cellOffset
    omega
  · exact cellOffset_lt_of_row (by omega) (by omega)
  · exact cellOffset_lt_of_row (by omega) (by omega)

/-- A neighbour of a cell of the raster is in the raster. -/
theorem inRaster_neighbour {p : Params} {x y x' y' : Nat} (hc : p.inRaster x y) (h : isNeighbour x y x' y') :
    p.inRaster x' y' := by
  obtain ⟨hx, hy⟩ := hc
  rcases h with ⟨h1, h2⟩ | ⟨h1, h2⟩ | ⟨h1, h2⟩ <;> exact ⟨by omega, by omega⟩

/-! ## The region's cells in scan order -/

theorem range_mul_eq_flatMap (w h : Nat) (f : Nat → Nat → α) :
    (List.range h).flatMap (fun j => (List.range w).map fun i => f i j)
      = (List.range (w * h)).map fun k => f (k % w) (k / w) := by
  induction h with
  | zero => simp
  | succ h ih =>
    rw [List.range_succ, List.flatMap_append, ih, Nat.mul_succ, List.range_add, List.map_append, List.map_map]
    congr 1
    simp only [List.flatMap_cons, List.flatMap_nil, List.append_nil]
    apply List.map_congr_left
    intro i hi
    have hi := List.mem_range.mp hi
    have hw : 0 < w := by omega
    simp [Nat.mod_eq_of_lt hi, Nat.mul_add_div hw, Nat.div_eq_of_lt hi]

/-- The `k`-th cell of the scan (rules R97, R105). -/
def nthCell (p : Params) (k : Nat) : Nat × Nat := (p.originX + k % p.regionW, p.originY + k / p.regionW)

theorem regionCells_eq_map (p : Params) :
    regionCells p = (List.range (p.regionW * p.regionH)).map (nthCell p) :=
  range_mul_eq_flatMap p.regionW p.regionH fun i j => (p.originX + i, p.originY + j)

theorem regionCells_length (p : Params) : (regionCells p).length = p.regionW * p.regionH := by
  rw [regionCells_eq_map, List.length_map, List.length_range]

theorem nthCell_inRegion {p : Params} {k : Nat} (hk : k < p.regionW * p.regionH) :
    p.inRegion (nthCell p k).1 (nthCell p k).2 := by
  have hw : 0 < p.regionW := Nat.pos_of_ne_zero fun h => by simp [h] at hk
  have h1 := Nat.mod_lt k hw
  have h2 : k / p.regionW < p.regionH := Nat.div_lt_of_lt_mul hk
  exact ⟨Nat.le_add_right _ _, Nat.add_lt_add_left h1 _, Nat.le_add_right _ _, Nat.add_lt_add_left h2 _⟩

theorem mem_regionCells {p : Params} {c : Nat × Nat} : c ∈ regionCells p ↔ p.inRegion c.1 c.2 := by
  obtain ⟨x, y⟩ := c
  simp only [regionCells, List.mem_flatMap, List.mem_range, List.mem_map, Prod.mk.injEq]
  constructor
  · rintro ⟨j, hj, i, hi, rfl, rfl⟩
    exact ⟨by omega, by omega, by omega, by omega⟩
  · rintro ⟨h1, h2, h3, h4⟩
    exact ⟨y - p.originY, by omega, x - p.originX, by omega, by omega, by omega⟩

/-- The cell after the `k`-th: one column right, or the first column of the next row (rule R104). -/
theorem nthCell_succ {p : Params} {k : Nat} (hw : 0 < p.regionW) :
    ((nthCell p k).1 + 1 < p.regionRight → nthCell p (k + 1) = ((nthCell p k).1 + 1, (nthCell p k).2)) ∧
      (¬ (nthCell p k).1 + 1 < p.regionRight → nthCell p (k + 1) = (p.originX, (nthCell p k).2 + 1)) := by
  have h1 := Nat.mod_lt k hw
  have h2 := Nat.div_add_mod k p.regionW
  unfold nthCell Params.regionRight
  constructor
  · intro h
    have h3 : k % p.regionW + 1 < p.regionW := by omega
    have hd : (k + 1) / p.regionW = k / p.regionW := by
      rw [Nat.div_eq_iff hw]
      constructor
      · rw [Nat.mul_comm]; omega
      · rw [Nat.mul_comm]; omega
    have hm : (k + 1) % p.regionW = k % p.regionW + 1 := by
      have h4 := Nat.div_add_mod (k + 1) p.regionW
      rw [hd] at h4
      omega
    rw [hd, hm, Nat.add_assoc]
  · intro h
    have h3 : k % p.regionW + 1 = p.regionW := by omega
    have hk : k + 1 = p.regionW * (k / p.regionW + 1) := by rw [Nat.mul_add, Nat.mul_one]; omega
    rw [hk, Nat.mul_mod_right, Nat.mul_div_cancel_left _ hw]
    simp [Nat.add_assoc]

/-- The cells of the scan come in increasing offset (rule R97). -/
theorem nthCell_offset_lt {p : Params} {n j k : Nat} (ha : p.accepted n) (hjk : j < k) (hk : k < p.regionW * p.regionH) :
    p.cellOffset (nthCell p j).1 (nthCell p j).2 < p.cellOffset (nthCell p k).1 (nthCell p k).2 := by
  have hw : 0 < p.regionW := Nat.pos_of_ne_zero fun h => by simp [h] at hk
  have hj := inRaster_of_inRegion ha (nthCell_inRegion (p := p) (lt_trans hjk hk))
  have h2 := Nat.div_add_mod j p.regionW
  have h3 := Nat.div_add_mod k p.regionW
  rcases Nat.lt_or_ge (j / p.regionW) (k / p.regionW) with hlt | hge
  · exact cellOffset_lt_of_row hj.1 (by simp only [nthCell]; omega)
  · have heq : j / p.regionW = k / p.regionW := le_antisymm (Nat.div_le_div_right hjk.le) hge
    simp only [Params.cellOffset, nthCell, heq]
    rw [heq] at h2
    omega

/-- Cell by cell, the scan's offsets increase (rule R97). -/
theorem regionCells_pairwise {p : Params} {n : Nat} (ha : p.accepted n) :
    (regionCells p).Pairwise fun c d => p.cellOffset c.1 c.2 < p.cellOffset d.1 d.2 := by
  rw [regionCells_eq_map, List.pairwise_map, List.pairwise_iff_getElem]
  intro i j hi hj hij
  simp only [List.length_range] at hj
  simp only [List.getElem_range]
  exact nthCell_offset_lt ha hij hj

/-! ## A fold of writes -/

/-- A fold that writes one word per cell keeps the canonical form. -/
theorem wf_foldl_write {n : Nat} {p : Params} {word : Memory → Nat × Nat → Word} {cells : List (Nat × Nat)} {d : Memory}
    (hd : d.wf n = true) (hc : ∀ c ∈ cells, p.cellOffset c.1 c.2 < n) :
    Memory.wf n (cells.foldl (fun d c => d.write (p.cellOffset c.1 c.2) (word d c)) d) = true := by
  induction cells generalizing d with
  | nil => exact hd
  | cons c rest ih =>
    exact ih (Memory.wf_write hd (hc c (by simp))) fun c' hc' => hc c' (by simp [hc'])

/-- It leaves every index alone that is no cell's. -/
theorem read_foldl_write_other {n i : Nat} {p : Params} {word : Memory → Nat × Nat → Word} {cells : List (Nat × Nat)}
    {d : Memory} (hd : d.wf n = true) (hc : ∀ c ∈ cells, p.cellOffset c.1 c.2 < n)
    (hi : ∀ c ∈ cells, i ≠ p.cellOffset c.1 c.2) :
    Memory.read (cells.foldl (fun d c => d.write (p.cellOffset c.1 c.2) (word d c)) d) i = d.read i := by
  induction cells generalizing d with
  | nil => rfl
  | cons c rest ih =>
    rw [List.foldl_cons, ih (Memory.wf_write hd (hc c (by simp))) (fun c' hc' => hc c' (by simp [hc']))
      (fun c' hc' => hi c' (by simp [hc'])), Memory.read_write_other hd (hi c (by simp))]

/-- Cells in increasing offset, cut at one of them: what the earlier writes left, the cell's own write, and later writes
that touch neither the cell nor anything below it. -/
theorem read_foldl_write_split {n i : Nat} {p : Params} {word : Memory → Nat × Nat → Word}
    {pre post : List (Nat × Nat)} {c : Nat × Nat} {d : Memory} (hd : d.wf n = true)
    (hc : ∀ c' ∈ pre ++ c :: post, p.cellOffset c'.1 c'.2 < n)
    (hs : (pre ++ c :: post).Pairwise fun c d => p.cellOffset c.1 c.2 < p.cellOffset d.1 d.2)
    (hi : i ≤ p.cellOffset c.1 c.2) :
    Memory.read ((pre ++ c :: post).foldl (fun d c => d.write (p.cellOffset c.1 c.2) (word d c)) d) i =
      if i = p.cellOffset c.1 c.2 then word (pre.foldl (fun d c => d.write (p.cellOffset c.1 c.2) (word d c)) d) c
      else Memory.read (pre.foldl (fun d c => d.write (p.cellOffset c.1 c.2) (word d c)) d) i := by
  have hpre := wf_foldl_write (word := word) hd (fun c' h => hc c' (by simp [h]) : ∀ c' ∈ pre, _)
  rw [List.foldl_append, List.foldl_cons, read_foldl_write_other (n := n), Memory.read_write hpre]
  · exact Memory.wf_write hpre (hc c (by simp))
  · exact fun c' h => hc c' (by simp [h])
  · intro c' h
    have := (List.pairwise_cons.mp (List.pairwise_append.mp hs).2.1).1 c' h
    omega

/-! ## The two loops -/

theorem pred32_congr_below {b b' : Memory} {w h x y : Nat} (hx : x < w)
    (hb : ∀ i, i < y * w + x → b.read i = b'.read i) :
    pred32 b w h x y (y * w + x) = pred32 b' w h x y (y * w + x) := by
  have hy : y ≠ 0 → y * w = (y - 1) * w + w := fun hy => by
    obtain ⟨z, rfl⟩ := Nat.exists_eq_succ_of_ne_zero hy
    simp [Nat.succ_mul]
  exact pred32_congr hx (fun _ => hb _ (by omega)) (fun h1 => hb _ (by have := hy h1; omega))
    (fun _ h1 => hb _ (by have := hy h1; omega))

/-- A prediction depends only on the cell's neighbours in the raster (rules R67, R73). -/
theorem pred32_congr_neighbours {b b' : Memory} {p : Params} {x y : Nat} (hx : x < p.width)
    (hb : ∀ x' y', isNeighbour x y x' y' → b.read (p.cellOffset x' y') = b'.read (p.cellOffset x' y')) :
    pred32 b p.width p.height x y (p.cellOffset x y) = pred32 b' p.width p.height x y (p.cellOffset x y) :=
  pred32_congr hx (fun h => hb (x - 1) y (Or.inl ⟨by omega, rfl⟩))
    (fun h => hb x (y - 1) (Or.inr (Or.inl ⟨rfl, by omega⟩)))
    (fun h h' => hb (x - 1) (y - 1) (Or.inr (Or.inr ⟨by omega, by omega⟩)))

theorem encLoop_wf {p : Params} {n : Nat} {src dst : Memory} (ha : p.accepted n) (hd : dst.wf n = true) :
    (encLoop p src dst).wf n = true :=
  wf_foldl_write hd fun _ hc => cellOffset_lt_nwords ha (mem_regionCells.mp hc)

theorem decLoop_wf {p : Params} {n : Nat} {src dst : Memory} (ha : p.accepted n) (hd : dst.wf n = true) :
    (decLoop p src dst).wf n = true :=
  wf_foldl_write hd fun _ hc => cellOffset_lt_nwords ha (mem_regionCells.mp hc)

theorem encLoop_read_other {p : Params} {n i : Nat} {src dst : Memory} (ha : p.accepted n) (hd : dst.wf n = true)
    (hi : ¬ p.regionOffset i) : (encLoop p src dst).read i = dst.read i :=
  read_foldl_write_other hd (fun _ hc => cellOffset_lt_nwords ha (mem_regionCells.mp hc))
    fun c hc h => hi ⟨c.1, c.2, mem_regionCells.mp hc, h⟩

theorem decLoop_read_other {p : Params} {n i : Nat} {src dst : Memory} (ha : p.accepted n) (hd : dst.wf n = true)
    (hi : ¬ p.regionOffset i) : (decLoop p src dst).read i = dst.read i :=
  read_foldl_write_other hd (fun _ hc => cellOffset_lt_nwords ha (mem_regionCells.mp hc))
    fun c hc h => hi ⟨c.1, c.2, mem_regionCells.mp hc, h⟩

/-- The closed form of an encode at a cell of its region (rule R101). -/
theorem encLoop_read_cell {p : Params} {n x y : Nat} {src dst : Memory} (ha : p.accepted n) (hd : dst.wf n = true)
    (hc : p.inRegion x y) : (encLoop p src dst).read (p.cellOffset x y) = encWord pred32 p src x y := by
  obtain ⟨pre, post, h⟩ := List.append_of_mem (mem_regionCells (c := (x, y)).mpr hc)
  have hlt : ∀ c ∈ regionCells p, p.cellOffset c.1 c.2 < n := fun c hc => cellOffset_lt_nwords ha (mem_regionCells.mp hc)
  have hs := regionCells_pairwise ha
  rw [h] at hlt hs
  unfold encLoop encCells
  rw [h, read_foldl_write_split (word := fun _ c => encWord pred32 p src c.1 c.2) hd hlt hs (le_refl _), if_pos rfl]

/-- A decode's result at a cell of its region, from its own final contents: the neighbours were final when they were read
(rules R41, R102, R103). -/
theorem decLoop_read_cell {p : Params} {n x y : Nat} {src dst : Memory} (ha : p.accepted n) (hd : dst.wf n = true)
    (hc : p.inRegion x y) :
    (decLoop p src dst).read (p.cellOffset x y) = decWord pred32 p src (decLoop p src dst) x y := by
  obtain ⟨pre, post, h⟩ := List.append_of_mem (mem_regionCells (c := (x, y)).mpr hc)
  have hlt : ∀ c ∈ regionCells p, p.cellOffset c.1 c.2 < n := fun c hc => cellOffset_lt_nwords ha (mem_regionCells.mp hc)
  have hs := regionCells_pairwise ha
  rw [h] at hlt hs
  have key := fun i hi => read_foldl_write_split (i := i) (word := fun d c => decWord pred32 p src d c.1 c.2) hd hlt hs hi
  have hloop : decLoop p src dst =
      (pre ++ (x, y) :: post).foldl (fun d c => d.write (p.cellOffset c.1 c.2) (decWord pred32 p src d c.1 c.2)) dst := by
    rw [← h]; rfl
  rw [← hloop] at key
  rw [key _ (le_refl _), if_pos rfl]
  unfold decWord
  congr 1
  refine pred32_congr_below (inRaster_of_inRegion ha hc).1 fun i hi => ?_
  exact ((key i (le_of_lt hi)).trans (if_neg (ne_of_lt hi))).symm

end Sys2Proof.Machine
end

