-- ==== Sys2Proof/Laws/Loops.lean ====
section
/-! SUPPORT. Facts about the loops of the two commands that several laws of spec/43_laws.md rest on: writes to different
words commute, a lane of a prediction, what a decode depends on, the cells of a whole raster. -/

namespace Sys2Proof.Machine

/-- Writes to different words commute. -/
theorem Memory.write_comm {n i j : Nat} {v w : Word} {m : Memory} (h : m.wf n = true) (hi : i < n) (hj : j < n)
    (hne : i ≠ j) : (m.write i v).write j w = (m.write j w).write i v := by
  refine Memory.ext_wf (Memory.wf_write (Memory.wf_write h hi) hj) (Memory.wf_write (Memory.wf_write h hj) hi) fun k => ?_
  rw [Memory.read_write (Memory.wf_write h hi), Memory.read_write h, Memory.read_write (Memory.wf_write h hj),
    Memory.read_write h]
  split <;> split <;> first | omega | rfl

/-- A lane of a prediction depends only on that lane of the neighbour cells, and in the same way for every lane. -/
theorem lane_pred32_congr {k k' : Fin 4} {b b' : Memory} {p : Params} {x y : Nat} (hx : x < p.width)
    (hb : ∀ x' y', isNeighbour x y x' y' →
      lane (b.read (p.cellOffset x' y')) k = lane (b'.read (p.cellOffset x' y')) k') :
    lane (pred32 b p.width p.height x y (p.cellOffset x y)) k
      = lane (pred32 b' p.width p.height x y (p.cellOffset x y)) k' := by
  have pick : ∀ {q : Prop} [Decidable q] {x' y' : Nat}, (¬ q → isNeighbour x y x' y') →
      lane (if q then 0#32 else b.read (y' * p.width + x')) k
        = lane (if q then 0#32 else b'.read (y' * p.width + x')) k' := fun hn => by
    split
    · rw [lane_zero, lane_zero]
    · next hq => exact hb _ _ (hn hq)
  unfold pred32 Params.cellOffset
  simp only [lane_packLanes, nfetch_eq _ hx]
  rw [pick fun h0 => Or.inl ⟨by omega, rfl⟩, pick fun h0 => Or.inr (Or.inl ⟨rfl, by omega⟩),
    pick fun h0 => Or.inr (Or.inr ⟨by omega, by omega⟩)]

/-- A neighbour outside the region is at no offset of the region. -/
theorem not_regionOffset_neighbour {p : Params} {n x y x' y' : Nat} (ha : p.accepted n) (hc : p.inRegion x y)
    (hn : isNeighbour x y x' y') (hr : ¬ p.inRegion x' y') : ¬ p.regionOffset (p.cellOffset x' y') := by
  rintro ⟨x₂, y₂, h₂, he⟩
  obtain ⟨rfl, rfl⟩ := cellOffset_inj (inRaster_neighbour (inRaster_of_inRegion ha hc) hn).1
    (inRaster_of_inRegion ha h₂).1 he
  exact hr h₂

/-- What a decode leaves on its region depends on nothing of DST but the neighbours outside the region (rule R103). -/
theorem decLoop_congr {p : Params} {n : Nat} {src d d' : Memory} (ha : p.accepted n) (hd : d.wf n = true)
    (hd' : d'.wf n = true)
    (hb : ∀ x y x' y', p.inRegion x y → isNeighbour x y x' y' → ¬ p.inRegion x' y' →
      d.read (p.cellOffset x' y') = d'.read (p.cellOffset x' y')) :
    ∀ x y, p.inRegion x y →
      (decLoop p src d).read (p.cellOffset x y) = (decLoop p src d').read (p.cellOffset x y) := by
  have key : ∀ m x y, p.cellOffset x y < m → p.inRegion x y →
      (decLoop p src d).read (p.cellOffset x y) = (decLoop p src d').read (p.cellOffset x y) := by
    intro m
    induction m with
    | zero => intro x y h; omega
    | succ m ih =>
      intro x y hm hc
      rw [decLoop_read_cell ha hd hc, decLoop_read_cell ha hd' hc]
      unfold decWord
      congr 1
      have hras := inRaster_of_inRegion ha hc
      refine pred32_congr_neighbours hras.1 fun x' y' hn => ?_
      by_cases hr : p.inRegion x' y'
      · exact ih x' y' (by have := cellOffset_neighbour_lt (p := p) hras.1 hn; omega) hr
      · have hni := not_regionOffset_neighbour ha hc hn hr
        rw [decLoop_read_other ha hd hni, decLoop_read_other ha hd' hni]
        exact hb x y x' y' hc hn hr
  exact fun x y => key _ x y (Nat.lt_succ_self _)

/-- The whole raster as a region. -/
theorem inRegion_full {p : Params} (hf : p.full) {x y : Nat} : p.inRegion x y ↔ p.inRaster x y := by
  obtain ⟨h1, h2, h3, h4⟩ := hf
  unfold Params.inRegion Params.inRaster
  omega

/-- Every index below the raster's size is the offset of a cell of it (rule R32). -/
theorem exists_cell {p : Params} {i : Nat} (h : i < p.width * p.height) :
    ∃ x y, p.inRaster x y ∧ i = p.cellOffset x y := by
  have hw : 0 < p.width := Nat.pos_of_ne_zero fun h0 => by simp [h0] at h
  refine ⟨i % p.width, i / p.width, ⟨Nat.mod_lt _ hw, Nat.div_lt_of_lt_mul h⟩, ?_⟩
  unfold Params.cellOffset
  rw [Nat.mul_comm]
  exact (Nat.div_add_mod i p.width).symm

end Sys2Proof.Machine
end

