-- ==== Sys2Proof/Laws/PerInstr.lean ====
section
/-! SUPPORT. Statements made for each command, one lemma a constructor. -/

namespace Sys2Proof.Laws.TableRow

/-- The `match` word of a command's row of spec/opcode_table.json. -/
def matchWord : Instr → Byte
  | .enc _ => 0x00#8
  | .dec _ => 0x01#8

/-- The selector of a command. -/
def selector : Instr → BitVec 3
  | .enc pred => pred
  | .dec pred => pred

/-- A command's byte, under the mask `0xF1` that both rows of spec/opcode_table.json have, is its row's `match` word, and the
bits 3:1 that the mask leaves out are its selector. -/
def Statement (i : Instr) : Prop :=
  encode i &&& 0xF1#8 = matchWord i ∧ (encode i).extractLsb' 1 3 = selector i

theorem enc (pred : BitVec 3) : Statement (.enc pred) := by
  unfold Statement
  revert pred
  decide

theorem dec (pred : BitVec 3) : Statement (.dec pred) := by
  unfold Statement
  revert pred
  decide

end Sys2Proof.Laws.TableRow
end

