-- ==== Sys2Proof/Laws/State.lean ====
section
/-! SUPPORT. One lemma per field per named update of the state, each true by `rfl`. A field that an update sets to a free
value has no lemma. -/

namespace Sys2Proof.Machine

/-! ## raisePrecond -/

@[simp] theorem raisePrecond_cfg (code : FaultCode) (s : State) : (raisePrecond code s).cfg = s.cfg := rfl
@[simp] theorem raisePrecond_params (code : FaultCode) (s : State) : (raisePrecond code s).params = s.params := rfl
@[simp] theorem raisePrecond_state (code : FaultCode) (s : State) : (raisePrecond code s).state = .error := rfl
@[simp] theorem raisePrecond_errCode (code : FaultCode) (s : State) :
    (raisePrecond code s).errCode = some code := rfl
@[simp] theorem raisePrecond_actOp (code : FaultCode) (s : State) : (raisePrecond code s).actOp = s.actOp := rfl
@[simp] theorem raisePrecond_actPred (code : FaultCode) (s : State) :
    (raisePrecond code s).actPred = s.actPred := rfl
@[simp] theorem raisePrecond_curX (code : FaultCode) (s : State) : (raisePrecond code s).curX = s.curX := rfl
@[simp] theorem raisePrecond_curY (code : FaultCode) (s : State) : (raisePrecond code s).curY = s.curY := rfl
@[simp] theorem raisePrecond_src (code : FaultCode) (s : State) : (raisePrecond code s).src = s.src := rfl
@[simp] theorem raisePrecond_dst (code : FaultCode) (s : State) : (raisePrecond code s).dst = s.dst := rfl
@[simp] theorem raisePrecond_schedule (code : FaultCode) (s : State) :
    (raisePrecond code s).schedule = s.schedule := rfl
@[simp] theorem raisePrecond_received (code : FaultCode) (s : State) :
    (raisePrecond code s).received = s.received := rfl
@[simp] theorem raisePrecond_draws (code : FaultCode) (s : State) : (raisePrecond code s).draws = s.draws := rfl

/-! ## latchCommand -/

@[simp] theorem latchCommand_cfg (c : Byte) (s : State) : (latchCommand c s).cfg = s.cfg := rfl
@[simp] theorem latchCommand_params (c : Byte) (s : State) : (latchCommand c s).params = s.params := rfl
@[simp] theorem latchCommand_state (c : Byte) (s : State) : (latchCommand c s).state = s.state := rfl
@[simp] theorem latchCommand_errCode (c : Byte) (s : State) : (latchCommand c s).errCode = none := rfl
@[simp] theorem latchCommand_actOp (c : Byte) (s : State) : (latchCommand c s).actOp = Op.ofBit (cmdOp c) := rfl
@[simp] theorem latchCommand_actPred (c : Byte) (s : State) : (latchCommand c s).actPred = cmdPred c := rfl
@[simp] theorem latchCommand_curX (c : Byte) (s : State) : (latchCommand c s).curX = s.curX := rfl
@[simp] theorem latchCommand_curY (c : Byte) (s : State) : (latchCommand c s).curY = s.curY := rfl
@[simp] theorem latchCommand_src (c : Byte) (s : State) : (latchCommand c s).src = s.src := rfl
@[simp] theorem latchCommand_dst (c : Byte) (s : State) : (latchCommand c s).dst = s.dst := rfl
@[simp] theorem latchCommand_schedule (c : Byte) (s : State) : (latchCommand c s).schedule = s.schedule := rfl
@[simp] theorem latchCommand_received (c : Byte) (s : State) : (latchCommand c s).received = s.received := rfl
@[simp] theorem latchCommand_draws (c : Byte) (s : State) : (latchCommand c s).draws = s.draws := rfl

/-! ## storeDst -/

@[simp] theorem storeDst_cfg (off : Nat) (v : Word) (s : State) : (storeDst off v s).cfg = s.cfg := rfl
@[simp] theorem storeDst_params (off : Nat) (v : Word) (s : State) : (storeDst off v s).params = s.params := rfl
@[simp] theorem storeDst_state (off : Nat) (v : Word) (s : State) : (storeDst off v s).state = s.state := rfl
@[simp] theorem storeDst_errCode (off : Nat) (v : Word) (s : State) : (storeDst off v s).errCode = s.errCode := rfl
@[simp] theorem storeDst_actOp (off : Nat) (v : Word) (s : State) : (storeDst off v s).actOp = s.actOp := rfl
@[simp] theorem storeDst_actPred (off : Nat) (v : Word) (s : State) : (storeDst off v s).actPred = s.actPred := rfl
@[simp] theorem storeDst_curX (off : Nat) (v : Word) (s : State) : (storeDst off v s).curX = s.curX := rfl
@[simp] theorem storeDst_curY (off : Nat) (v : Word) (s : State) : (storeDst off v s).curY = s.curY := rfl
@[simp] theorem storeDst_src (off : Nat) (v : Word) (s : State) : (storeDst off v s).src = s.src := rfl
@[simp] theorem storeDst_dst (off : Nat) (v : Word) (s : State) : (storeDst off v s).dst = s.dst.write off v := rfl
@[simp] theorem storeDst_schedule (off : Nat) (v : Word) (s : State) :
    (storeDst off v s).schedule = s.schedule := rfl
@[simp] theorem storeDst_received (off : Nat) (v : Word) (s : State) :
    (storeDst off v s).received = s.received := rfl
@[simp] theorem storeDst_draws (off : Nat) (v : Word) (s : State) : (storeDst off v s).draws = s.draws := rfl

/-! ## receive -/

@[simp] theorem receive_cfg (v : Nat) (s : State) : (receive v s).cfg = s.cfg := rfl
@[simp] theorem receive_params (v : Nat) (s : State) : (receive v s).params = s.params := rfl
@[simp] theorem receive_state (v : Nat) (s : State) : (receive v s).state = s.state := rfl
@[simp] theorem receive_errCode (v : Nat) (s : State) : (receive v s).errCode = s.errCode := rfl
@[simp] theorem receive_actOp (v : Nat) (s : State) : (receive v s).actOp = s.actOp := rfl
@[simp] theorem receive_actPred (v : Nat) (s : State) : (receive v s).actPred = s.actPred := rfl
@[simp] theorem receive_curX (v : Nat) (s : State) : (receive v s).curX = s.curX := rfl
@[simp] theorem receive_curY (v : Nat) (s : State) : (receive v s).curY = s.curY := rfl
@[simp] theorem receive_src (v : Nat) (s : State) : (receive v s).src = s.src := rfl
@[simp] theorem receive_dst (v : Nat) (s : State) : (receive v s).dst = s.dst := rfl
@[simp] theorem receive_schedule (v : Nat) (s : State) : (receive v s).schedule = s.schedule := rfl
@[simp] theorem receive_received (v : Nat) (s : State) : (receive v s).received = v :: s.received := rfl
@[simp] theorem receive_draws (v : Nat) (s : State) : (receive v s).draws = s.draws := rfl

/-! ## freePosition -/

@[simp] theorem freePosition_cfg (s : State) : (freePosition s).cfg = s.cfg := rfl
@[simp] theorem freePosition_params (s : State) : (freePosition s).params = s.params := rfl
@[simp] theorem freePosition_state (s : State) : (freePosition s).state = s.state := rfl
@[simp] theorem freePosition_errCode (s : State) : (freePosition s).errCode = s.errCode := rfl
@[simp] theorem freePosition_actOp (s : State) : (freePosition s).actOp = s.actOp := rfl
@[simp] theorem freePosition_actPred (s : State) : (freePosition s).actPred = s.actPred := rfl
@[simp] theorem freePosition_src (s : State) : (freePosition s).src = s.src := rfl
@[simp] theorem freePosition_dst (s : State) : (freePosition s).dst = s.dst := rfl
@[simp] theorem freePosition_schedule (s : State) : (freePosition s).schedule = s.schedule := rfl
@[simp] theorem freePosition_received (s : State) : (freePosition s).received = s.received := rfl

/-! ## freeLatch -/

@[simp] theorem freeLatch_cfg (s : State) : (freeLatch s).cfg = s.cfg := rfl
@[simp] theorem freeLatch_params (s : State) : (freeLatch s).params = s.params := rfl
@[simp] theorem freeLatch_state (s : State) : (freeLatch s).state = s.state := rfl
@[simp] theorem freeLatch_errCode (s : State) : (freeLatch s).errCode = s.errCode := rfl
@[simp] theorem freeLatch_curX (s : State) : (freeLatch s).curX = s.curX := rfl
@[simp] theorem freeLatch_curY (s : State) : (freeLatch s).curY = s.curY := rfl
@[simp] theorem freeLatch_src (s : State) : (freeLatch s).src = s.src := rfl
@[simp] theorem freeLatch_dst (s : State) : (freeLatch s).dst = s.dst := rfl
@[simp] theorem freeLatch_schedule (s : State) : (freeLatch s).schedule = s.schedule := rfl
@[simp] theorem freeLatch_received (s : State) : (freeLatch s).received = s.received := rfl

/-! ## finish -/

@[simp] theorem finish_cfg (s : State) : (finish s).cfg = s.cfg := rfl
@[simp] theorem finish_params (s : State) : (finish s).params = s.params := rfl
@[simp] theorem finish_state (s : State) : (finish s).state = .done := rfl
@[simp] theorem finish_errCode (s : State) : (finish s).errCode = s.errCode := rfl
@[simp] theorem finish_actOp (s : State) : (finish s).actOp = s.actOp := rfl
@[simp] theorem finish_actPred (s : State) : (finish s).actPred = s.actPred := rfl
@[simp] theorem finish_src (s : State) : (finish s).src = s.src := rfl
@[simp] theorem finish_dst (s : State) : (finish s).dst = s.dst := rfl
@[simp] theorem finish_schedule (s : State) : (finish s).schedule = s.schedule := rfl
@[simp] theorem finish_received (s : State) : (finish s).received = s.received := rfl

/-! ## applyReset -/

@[simp] theorem applyReset_cfg (s : State) : (applyReset s).cfg = s.cfg := rfl
@[simp] theorem applyReset_params (s : State) : (applyReset s).params = Params.mk 0 0 0 0 0 0 := rfl
@[simp] theorem applyReset_state (s : State) : (applyReset s).state = .idle := rfl
@[simp] theorem applyReset_errCode (s : State) : (applyReset s).errCode = none := rfl
@[simp] theorem applyReset_src (s : State) : (applyReset s).src = s.src := rfl
@[simp] theorem applyReset_dst (s : State) : (applyReset s).dst = s.dst := rfl
@[simp] theorem applyReset_schedule (s : State) : (applyReset s).schedule = s.schedule := rfl
@[simp] theorem applyReset_received (s : State) : (applyReset s).received = s.received := rfl

/-! ## State.popTurn -/

@[simp] theorem popTurn_cfg (s : State) : (State.popTurn s).cfg = s.cfg := rfl
@[simp] theorem popTurn_params (s : State) : (State.popTurn s).params = s.params := rfl
@[simp] theorem popTurn_state (s : State) : (State.popTurn s).state = s.state := rfl
@[simp] theorem popTurn_errCode (s : State) : (State.popTurn s).errCode = s.errCode := rfl
@[simp] theorem popTurn_actOp (s : State) : (State.popTurn s).actOp = s.actOp := rfl
@[simp] theorem popTurn_actPred (s : State) : (State.popTurn s).actPred = s.actPred := rfl
@[simp] theorem popTurn_curX (s : State) : (State.popTurn s).curX = s.curX := rfl
@[simp] theorem popTurn_curY (s : State) : (State.popTurn s).curY = s.curY := rfl
@[simp] theorem popTurn_src (s : State) : (State.popTurn s).src = s.src := rfl
@[simp] theorem popTurn_dst (s : State) : (State.popTurn s).dst = s.dst := rfl
@[simp] theorem popTurn_schedule (s : State) : (State.popTurn s).schedule = s.schedule.tail := rfl
@[simp] theorem popTurn_received (s : State) : (State.popTurn s).received = s.received := rfl
@[simp] theorem popTurn_draws (s : State) : (State.popTurn s).draws = s.draws := rfl

/-! ## Parameter registers -/

/-- A write of a parameter register keeps every register within the width (rules R10, R17). -/
theorem Params.fits_set {cw : Nat} {p : Params} (h : p.fits cw) (index : Nat) {v : Nat} (hv : v < 2 ^ cw) :
    (p.set index v).fits cw := by
  obtain ⟨h0, h1, h2, h3, h4, h5⟩ := h
  unfold Params.set
  split <;> exact ⟨by assumption, by assumption, by assumption, by assumption, by assumption, by assumption⟩

end Sys2Proof.Machine
end

