-- ==== Sys2Proof/Laws/Step.lean ====
section
/-! SUPPORT. What a turn can do: issue of a command, one cell, the host's moves, and the step that calls them; each keeps
the invariant. -/

namespace Sys2Proof.Machine

/-! ## Turns -/

theorem step_host {s : State} {a : HostAction} {rest : List Turn} (h : s.schedule = .host a :: rest) :
    step s = hostAct a s.popTurn := by
  unfold step State.popTurn
  rw [h]
  rfl

theorem step_engine {s : State} (h : s.engineMoves) : step s = engineTurn s.popTurn := by
  unfold step State.popTurn
  obtain ⟨cfg, params, state, errCode, actOp, actPred, curX, curY, src, dst, schedule, received, draws⟩ := s
  cases schedule with
  | nil => rfl
  | cons t rest =>
    cases t with
    | host a => simp [State.engineMoves] at h
    | engine => rfl

/-- Every turn is the host's or the engine's. -/
theorem turn_cases (s : State) : s.engineMoves ∨ ∃ a rest, s.schedule = .host a :: rest := by
  obtain ⟨cfg, params, state, errCode, actOp, actPred, curX, curY, src, dst, schedule, received, draws⟩ := s
  cases schedule with
  | nil => exact Or.inl (Or.inl rfl)
  | cons t rest =>
    cases t with
    | host a => exact Or.inr ⟨a, rest, rfl⟩
    | engine => exact Or.inl (Or.inr rfl)

/-! ## The command byte -/

theorem cmdRsv_encode (i : Instr) : cmdRsv (encode i) = 0#4 := by
  cases i <;> (rename_i q; revert q; decide)

theorem cmdPred_encode_enc (q : BitVec 3) : cmdPred (encode (.enc q)) = q := by revert q; decide

theorem cmdPred_encode_dec (q : BitVec 3) : cmdPred (encode (.dec q)) = q := by revert q; decide

theorem cmdOp_encode_enc (q : BitVec 3) : cmdOp (encode (.enc q)) = 0#1 := by revert q; decide

theorem cmdOp_encode_dec (q : BitVec 3) : cmdOp (encode (.dec q)) = 1#1 := by revert q; decide

/-- Both meanings are the issue of the command's byte. -/
theorem exec_eq_issue (i : Instr) (s : State) : exec i s = .next (issue (encode i) s) := by cases i <;> rfl

/-- The three parts of a byte are all of it. -/
theorem cmdByte_fields (c : Byte) : cmdByte (cmdRsv c) (cmdPred c) (cmdOp c) = c := by
  revert c
  decide

/-- Decoding a byte and running what it decodes to is issuing the byte (rules R57, R96). -/
theorem commandByte_eq_issue (c : Byte) {s : State} (hb : s.state ≠ .busy) :
    commandByte c s = .next (issue c s) := by
  unfold commandByte decode
  by_cases hr : cmdRsv c = 0#4
  · rw [if_neg (not_not_intro hr)]
    have hc := cmdByte_fields c
    rw [hr] at hc
    by_cases ho : cmdOp c = 0#1
    · rw [if_pos ho]
      rw [ho] at hc
      show Host.Outcome.next (issue (cmdByte 0#4 (cmdPred c) 0#1) s) = _
      rw [hc]
    · rw [if_neg ho]
      have ho1 : cmdOp c = 1#1 := (BitVec.eq_zero_or_eq_one (cmdOp c)).resolve_left ho
      rw [ho1] at hc
      show Host.Outcome.next (issue (cmdByte 0#4 (cmdPred c) 1#1) s) = _
      rw [hc]
  · rw [if_pos hr]
    simp only [issue, startCheck, if_neg hb, ne_eq, hr, not_false_eq_true, if_true]

/-! ## The start check -/

/-- A command passes the start check exactly when its byte is `0x00` or `0x01` and its parameters are accepted
(rule R136). -/
theorem startCheck_eq_none {c : Byte} {n : Nat} {p : Params} :
    startCheck c n p = none ↔ cmdRsv c = 0#4 ∧ cmdPred c = 0#3 ∧ p.accepted n := by
  unfold startCheck
  constructor
  · intro h
    split at h <;> [cases h; skip]
    split at h <;> [cases h; skip]
    split at h <;> [cases h; skip]
    split at h <;> [cases h; skip]
    split at h <;> [cases h; skip]
    refine ⟨?_, ?_, ?_, ?_, ?_⟩ <;> first | omega | simp_all
  · rintro ⟨h1, h2, h3, h4, h5⟩
    simp [h1, h2, Nat.not_lt.mpr h3, Nat.not_lt.mpr h4, Nat.not_lt.mpr h5]

/-- A command with an existing predictor and accepted parameters passes. -/
theorem startCheck_encode {i : Instr} {n : Nat} {p : Params} (hi : i.wf = true) (ha : p.accepted n) :
    startCheck (encode i) n p = none := by
  rw [startCheck_eq_none]
  refine ⟨cmdRsv_encode i, ?_, ha⟩
  cases i with
  | enc q => rw [cmdPred_encode_enc]; simpa [Instr.wf, predExists] using hi
  | dec q => rw [cmdPred_encode_dec]; simpa [Instr.wf, predExists] using hi

/-! ## Issue -/

theorem issue_busy {c : Byte} {s : State} (h : s.state = .busy) : issue c s = s := if_pos h

theorem issue_fault {c : Byte} {s : State} {code : FaultCode} (hb : s.state ≠ .busy)
    (hc : startCheck c s.cfg.nwords s.params = some code) : issue c s = raisePrecond code s := by
  rw [issue, if_neg hb, hc]

theorem issue_pass {c : Byte} {s : State} (hb : s.state ≠ .busy)
    (hc : startCheck c s.cfg.nwords s.params = none) : issue c s = startScan (latchCommand c s) := by
  rw [issue, if_neg hb, hc]

/-- The region is empty exactly when one of its sides is 0 (rule R95). -/
theorem regionEmpty_iff {p : Params} : p.regionEmpty = true ↔ p.regionW = 0 ∨ p.regionH = 0 := by
  simp [Params.regionEmpty]

/-- Every case of an issue (rule R96). -/
theorem issue_cases (c : Byte) (s : State) :
    (s.state = .busy ∧ issue c s = s) ∨
    (s.state ≠ .busy ∧ ∃ code, startCheck c s.cfg.nwords s.params = some code ∧ issue c s = raisePrecond code s) ∨
    (s.state ≠ .busy ∧ startCheck c s.cfg.nwords s.params = none ∧ s.params.regionEmpty = true ∧
      issue c s = { latchCommand c s with state := .done }) ∨
    (s.state ≠ .busy ∧ startCheck c s.cfg.nwords s.params = none ∧ s.params.regionEmpty = false ∧
      issue c s =
        { latchCommand c s with curX := s.params.originX, curY := s.params.originY, state := .busy }) := by
  by_cases hb : s.state = .busy
  · exact Or.inl ⟨hb, issue_busy hb⟩
  · right
    cases hc : startCheck c s.cfg.nwords s.params with
    | some code => exact Or.inl ⟨hb, code, rfl, issue_fault hb hc⟩
    | none =>
      right
      cases he : s.params.regionEmpty with
      | true => exact Or.inl ⟨hb, rfl, rfl, (issue_pass hb hc).trans (if_pos he)⟩
      | false =>
        exact Or.inr ⟨hb, rfl, rfl, (issue_pass hb hc).trans (if_neg (by simp [he]))⟩

theorem inRegion_first {p : Params} (h : p.regionEmpty = false) : p.inRegion p.originX p.originY := by
  have h' : ¬ (p.regionW = 0 ∨ p.regionH = 0) := by rw [← regionEmpty_iff, h]; simp
  exact ⟨le_refl _, by omega, le_refl _, by omega⟩

theorem issue_inv {c : Byte} {s : State} (h : s.Inv) : (issue c s).Inv := by
  rcases issue_cases c s with ⟨-, he⟩ | ⟨-, code, -, he⟩ | ⟨-, -, -, he⟩ | ⟨-, hc, hr, he⟩ <;> rw [he]
  · exact h
  all_goals obtain ⟨h1, h2, h3, h4, h5, h6, -, -⟩ := h
  · exact ⟨h1, h2, h3, h4, h5, h6, by simp, by simp⟩
  · exact ⟨h1, h2, h3, h4, h5, h6, by simp, by simp⟩
  · obtain ⟨hq1, hq2, hq3⟩ := startCheck_eq_none.mp hc
    exact ⟨h1, h2, h2.2.2.1, h2.2.2.2.1, h5, h6, by simp, fun _ => ⟨hq3, hq2, inRegion_first hr⟩⟩

/-! ## One cell -/

/-- In a state of the invariant a BUSY engine's step processes its cell and answers a next state (rules R100, R139). -/
theorem cell_eq {s : State} (h : s.Inv) (hb : s.state = .busy) :
    cell s = .next (advance (storeDst (offset s) (outWord pred32 s) s)) := by
  obtain ⟨-, -, -, -, -, -, -, hs⟩ := h
  obtain ⟨ha, hq, hr⟩ := hs hb
  unfold cell predictorOf
  rw [if_pos hq]
  exact if_pos (cellOffset_lt_nwords ha hr)

/-- Every case of ADVANCE (rule R104). -/
theorem advance_cases (s : State) :
    (s.curX + 1 < s.params.regionRight ∧ advance s = { s with curX := s.curX + 1 }) ∨
    (¬ s.curX + 1 < s.params.regionRight ∧ s.curY + 1 < s.params.regionBottom ∧
      advance s = { s with curX := s.params.originX, curY := s.curY + 1 }) ∨
    (¬ s.curX + 1 < s.params.regionRight ∧ ¬ s.curY + 1 < s.params.regionBottom ∧ advance s = finish s) := by
  unfold advance
  by_cases h1 : s.curX + 1 < s.params.regionRight
  · exact Or.inl ⟨h1, if_pos h1⟩
  · by_cases h2 : s.curY + 1 < s.params.regionBottom
    · exact Or.inr (Or.inl ⟨h1, h2, by rw [if_neg h1, if_pos h2]⟩)
    · exact Or.inr (Or.inr ⟨h1, h2, by rw [if_neg h1, if_neg h2]⟩)

/-- ADVANCE changes STATE and the scan position only (and the model's count of draws). -/
theorem advance_frame (s : State) :
    (advance s).cfg = s.cfg ∧ (advance s).params = s.params ∧ (advance s).errCode = s.errCode ∧
      (advance s).actOp = s.actOp ∧ (advance s).actPred = s.actPred ∧ (advance s).src = s.src ∧
      (advance s).dst = s.dst ∧ (advance s).schedule = s.schedule ∧ (advance s).received = s.received := by
  rcases advance_cases s with ⟨-, he⟩ | ⟨-, -, he⟩ | ⟨-, -, he⟩ <;> rw [he] <;> exact ⟨rfl, rfl, rfl, rfl, rfl, rfl, rfl, rfl, rfl⟩

theorem finish_inv {s : State} (h : s.Inv) (hb : s.state = .busy) : (finish s).Inv := by
  obtain ⟨h1, h2, h3, h4, h5, h6, h7, -⟩ := h
  refine ⟨h1, h2, Nat.mod_lt _ (by positivity), Nat.mod_lt _ (by positivity), h5, h6, ?_, by simp⟩
  rw [hb] at h7
  simpa using h7

theorem advance_inv {s : State} (h : s.Inv) (hb : s.state = .busy) : (advance s).Inv := by
  rcases advance_cases s with ⟨hx, he⟩ | ⟨-, hy, he⟩ | ⟨-, -, he⟩ <;> rw [he]
  · obtain ⟨h1, h2, h3, h4, h5, h6, h7, h8⟩ := h
    obtain ⟨ha, hq, r1, r2, r3, r4⟩ := h8 hb
    have hw := ha.2.1
    have := h2.1
    exact ⟨h1, h2, by simp only; omega, h4, h5, h6, h7, fun _ => ⟨ha, hq, by
      unfold Params.regionRight at hx; exact ⟨by simp only; omega, hx, r3, r4⟩⟩⟩
  · obtain ⟨h1, h2, h3, h4, h5, h6, h7, h8⟩ := h
    obtain ⟨ha, hq, r1, r2, r3, r4⟩ := h8 hb
    have hh := ha.2.2
    have := h2.2.1
    exact ⟨h1, h2, h2.2.2.1, by simp only; omega, h5, h6, h7, fun _ => ⟨ha, hq, by
      unfold Params.regionBottom at hy; exact ⟨le_refl _, by simp only; omega, by simp only; omega, hy⟩⟩⟩
  · exact finish_inv h hb

theorem storeDst_inv {s : State} {off : Nat} {v : Word} (h : s.Inv) (ho : off < s.cfg.nwords) :
    (storeDst off v s).Inv := by
  obtain ⟨h1, h2, h3, h4, h5, h6, h7, h8⟩ := h
  exact ⟨h1, h2, h3, h4, h5, Memory.wf_write h6 ho, h7, h8⟩

theorem offset_lt {s : State} (h : s.Inv) (hb : s.state = .busy) : offset s < s.cfg.nwords := by
  obtain ⟨-, -, -, -, -, -, -, hs⟩ := h
  obtain ⟨ha, -, hr⟩ := hs hb
  exact cellOffset_lt_nwords ha hr

theorem popTurn_inv {s : State} (h : s.Inv) : s.popTurn.Inv := h

theorem engineTurn_inv {s t : State} (h : s.Inv) (ht : engineTurn s = .next t) : t.Inv := by
  unfold engineTurn at ht
  split at ht
  · next hb =>
    rw [cell_eq h hb] at ht
    cases ht
    exact advance_inv (storeDst_inv h (offset_lt h hb)) hb
  · cases ht
    exact h

/-! ## The host's moves -/

theorem receive_inv {s : State} {v : Nat} (h : s.Inv) : (receive v s).Inv := h

theorem writeReg_inv {s t : State} {index value : Nat} (h : s.Inv) (ht : writeReg index value s = .next t) : t.Inv := by
  unfold writeReg at ht
  split at ht
  · cases ht; exact h
  · next hb =>
    split at ht
    · rw [commandByte_eq_issue _ hb] at ht
      cases ht
      exact issue_inv h
    · cases ht
      obtain ⟨h1, h2, h3, h4, h5, h6, h7, -⟩ := h
      exact ⟨h1, Params.fits_set h2 index (Nat.mod_lt _ (by positivity)), h3, h4, h5, h6, h7, fun hc => absurd hc hb⟩

theorem applyReset_inv {s : State} (h : s.Inv) : (applyReset s).Inv := by
  obtain ⟨h1, -, -, -, h5, h6, -, -⟩ := h
  have hp : 0 < 2 ^ s.cfg.cw := by positivity
  exact ⟨h1, ⟨hp, hp, hp, hp, hp, hp⟩, Nat.mod_lt _ hp, Nat.mod_lt _ hp, h5, h6, by simp, by simp⟩

theorem storeWord_inv {s : State} {b : Buffer} {i : Nat} {v : Word} (h : s.Inv) (hi : i < s.cfg.nwords) :
    (storeWord b i v s).Inv := by
  obtain ⟨h1, h2, h3, h4, h5, h6, h7, h8⟩ := h
  cases b with
  | src => exact ⟨h1, h2, h3, h4, Memory.wf_write h5 hi, h6, h7, h8⟩
  | dst => exact ⟨h1, h2, h3, h4, h5, Memory.wf_write h6 hi, h7, h8⟩

/-- A buffer move that answers a next state was made while the engine was not BUSY, at an index that exists. -/
theorem bufferMove_next {s t u : State} {b : Buffer} {i : Nat} (h : bufferMove b i s t = .next u) :
    s.state ≠ .busy ∧ i < s.cfg.nwords ∧ u = t := by
  unfold bufferMove at h
  split at h
  · cases h
  · next hb =>
    split at h
    · next hi => cases h; exact ⟨hb, hi, rfl⟩
    · cases h

theorem waitPoll_inv {s : State} (h : s.Inv) : (waitPoll s).Inv := by
  unfold waitPoll
  split <;> exact h

theorem hostAct_inv {s t : State} {a : HostAction} (h : s.Inv) (ht : hostAct a s = .next t) : t.Inv := by
  cases a with
  | write index value => exact writeReg_inv h ht
  | read index => cases ht; exact receive_inv h
  | wait => cases ht; exact waitPoll_inv h
  | writeWord b i v =>
    obtain ⟨-, hi, rfl⟩ := bufferMove_next ht
    exact storeWord_inv h hi
  | readWord b i =>
    obtain ⟨-, -, rfl⟩ := bufferMove_next ht
    exact receive_inv h
  | reset => cases ht; exact applyReset_inv h

/-! ## What a step can do -/

/-- A step that answers a next state is a turn of the engine or one action of the host. -/
theorem step_next_cases {s t : State} (h : step s = .next t) :
    (s.engineMoves ∧ engineTurn s.popTurn = .next t) ∨
      ∃ a, s.schedule.head? = some (.host a) ∧ hostAct a s.popTurn = .next t := by
  rcases turn_cases s with he | ⟨a, rest, ha⟩
  · exact Or.inl ⟨he, by rw [← step_engine he]; exact h⟩
  · exact Or.inr ⟨a, by rw [ha]; rfl, by rw [← step_host ha]; exact h⟩

theorem engineMoves_head {s : State} (h : s.engineMoves) (a : HostAction) : s.schedule.head? ≠ some (.host a) := by
  rcases h with h | h <;> rw [h] <;> simp

/-- The engine's turn: one cell while BUSY, nothing otherwise (rules R100, R148). -/
theorem engineTurn_next_cases {s t : State} (h : engineTurn s = .next t) :
    (s.state = .busy ∧ t = advance (storeDst (offset s) (outWord pred32 s) s)) ∨ (s.state ≠ .busy ∧ t = s) := by
  unfold engineTurn at h
  split at h
  · next hb =>
    refine Or.inl ⟨hb, ?_⟩
    unfold cell predictorOf at h
    split at h
    · cases h
    · next hp =>
      split at hp
      · cases hp
        split at h
        · cases h; rfl
        · cases h
      · cases hp
  · next hb => cases h; exact Or.inr ⟨hb, rfl⟩

/-- A register write that answers a next state (rule R17): ignored, a command issued, or a parameter register set. -/
theorem writeReg_next_cases {s t : State} {index value : Nat} (h : writeReg index value s = .next t) :
    (s.state = .busy ∧ t = s) ∨
    (s.state ≠ .busy ∧ index = 6 ∧ t = issue (BitVec.ofNat 8 value) s) ∨
    (s.state ≠ .busy ∧ index ≠ 6 ∧ t = { s with params := s.params.set index (value % 2 ^ s.cfg.cw) }) := by
  unfold writeReg at h
  split at h
  · next hb => cases h; exact Or.inl ⟨hb, rfl⟩
  · next hb =>
    split at h
    · next hi =>
      rw [commandByte_eq_issue _ hb] at h
      cases h
      exact Or.inr (Or.inl ⟨hb, hi, rfl⟩)
    · next hi => cases h; exact Or.inr (Or.inr ⟨hb, hi, rfl⟩)

/-- An index above 5 names no parameter register (rule R17). -/
theorem Params.set_above {p : Params} {index v : Nat} (h : 5 < index) : p.set index v = p := by
  unfold Params.set
  split <;> first | omega | rfl

/-- A poll of `WAIT` changes the schedule and the received values only. -/
theorem waitPoll_frame (s : State) :
    (waitPoll s).cfg = s.cfg ∧ (waitPoll s).params = s.params ∧ (waitPoll s).state = s.state ∧
      (waitPoll s).errCode = s.errCode ∧ (waitPoll s).actOp = s.actOp ∧ (waitPoll s).actPred = s.actPred ∧
      (waitPoll s).src = s.src ∧ (waitPoll s).dst = s.dst := by
  unfold waitPoll
  split <;> exact ⟨rfl, rfl, rfl, rfl, rfl, rfl, rfl, rfl⟩

/-- A host's word write touches one buffer and nothing else. -/
theorem storeWord_frame (b : Buffer) (i : Nat) (v : Word) (s : State) :
    (storeWord b i v s).cfg = s.cfg ∧ (storeWord b i v s).params = s.params ∧ (storeWord b i v s).state = s.state ∧
      (storeWord b i v s).errCode = s.errCode ∧ (storeWord b i v s).actOp = s.actOp ∧
      (storeWord b i v s).actPred = s.actPred := by
  cases b <;> exact ⟨rfl, rfl, rfl, rfl, rfl, rfl⟩

/-- Issue touches no memory, no parameter and none of the model's own fields (rules R96, R137). -/
theorem issue_frame (c : Byte) (s : State) :
    (issue c s).cfg = s.cfg ∧ (issue c s).params = s.params ∧ (issue c s).src = s.src ∧ (issue c s).dst = s.dst ∧
      (issue c s).schedule = s.schedule ∧ (issue c s).received = s.received ∧ (issue c s).draws = s.draws := by
  rcases issue_cases c s with ⟨-, he⟩ | ⟨-, code, -, he⟩ | ⟨-, -, -, he⟩ | ⟨-, -, -, he⟩ <;> rw [he] <;>
    exact ⟨rfl, rfl, rfl, rfl, rfl, rfl, rfl⟩

/-- Issue writes the start check's code to `ERRCODE` (rule R15). -/
theorem issue_errCode {c : Byte} {s : State} (hb : s.state ≠ .busy) :
    (issue c s).errCode = startCheck c s.cfg.nwords s.params := by
  rcases issue_cases c s with ⟨h, -⟩ | ⟨-, code, h, he⟩ | ⟨-, h, -, he⟩ | ⟨-, h, -, he⟩
  · exact absurd h hb
  all_goals rw [he, h]; rfl

/-- A CMD write that is the next turn of a machine that is not BUSY is the issue of its byte. -/
theorem step_command {s : State} {v : Nat} {rest : List Turn} (h : s.schedule = .host (.write 6 v) :: rest)
    (hb : s.state ≠ .busy) : step s = .next (issue (BitVec.ofNat 8 v) s.popTurn) := by
  rw [step_host h]
  show writeReg 6 v s.popTurn = _
  unfold writeReg
  rw [if_neg (by exact hb), if_pos rfl, commandByte_eq_issue _ (by exact hb)]

theorem step_command_next {s t : State} {v : Nat} (h : step s = .next t)
    (hw : s.schedule.head? = some (.host (.write 6 v))) (hb : s.state ≠ .busy) :
    t = issue (BitVec.ofNat 8 v) s.popTurn := by
  rcases turn_cases s with he | ⟨a, rest, ha⟩
  · exact absurd hw (engineMoves_head he _)
  · rw [ha] at hw
    cases hw
    rw [step_command ha hb] at h
    cases h
    rfl

theorem popTurn_eq {s : State} {x : Turn} {rest : List Turn} (h : s.schedule = x :: rest) :
    s.popTurn = { s with schedule := rest } := by
  unfold State.popTurn
  rw [h]
  rfl

/-- The engine's step in a state of the invariant (rules R100, R139). -/
theorem step_cell {s : State} (h : s.Inv) (hb : s.state = .busy) (he : s.engineMoves) :
    step s = .next (advance (storeDst (offset s) (outWord pred32 s) s.popTurn)) := by
  rw [step_engine he, engineTurn, if_pos (by exact hb), cell_eq (popTurn_inv h) hb]
  rfl

/-- The latched operation is bit 0 of the byte (rules R16, R52). -/
theorem ofBit_cmdOp (c : Byte) : Op.ofBit (cmdOp c) = if c.getLsbD 0 = true then .dec else .enc := by
  revert c
  decide

end Sys2Proof.Machine
end

