-- ==== Sys2Proof/Laws/Run.lean ====
section
/-! SUPPORT. Runs: one command from its issue to DONE, cell by cell, and the loops it carries out. -/

namespace Sys2Proof.Machine

/-! ## Runs of steps -/

theorem coreRun_next (M : Host.Core) {s t : M.State} (h : M.step s = .next t) (k : Nat) : M.run (k + 1) s = M.run k t := by
  simp only [Host.Core.run, h]

theorem coreRun_fault (M : Host.Core) {s : M.State} {r : M.Fault} (h : M.step s = .fault r) (k : Nat) :
    M.run (k + 1) s = .fault r := by
  simp only [Host.Core.run, h]

theorem coreRun_refused (M : Host.Core) {s : M.State} {r : M.Refusal} (h : M.step s = .refused r) (k : Nat) :
    M.run (k + 1) s = .refused r := by
  simp only [Host.Core.run, h]

theorem run_zero (s : State) : run 0 s = .next s := rfl

theorem run_succ_of_step {s t : State} (h : step s = .next t) (k : Nat) : run (k + 1) s = run k t :=
  coreRun_next Sys2Proof.core h k

theorem run_one {s t : State} (h : step s = .next t) : run 1 s = .next t := run_succ_of_step h 0

theorem run_add {s t : State} {j : Nat} (h : run j s = .next t) (k : Nat) : run (j + k) s = run k t := by
  induction j generalizing s with
  | zero => cases h; rw [Nat.zero_add]
  | succ j ih =>
    cases hs : step s with
    | next s' =>
      rw [run_succ_of_step hs] at h
      rw [Nat.add_right_comm, run_succ_of_step hs]
      exact ih h
    | fault r =>
      have := coreRun_fault Sys2Proof.core hs j
      exact absurd (h.symm.trans this) (by simp)
    | refused r =>
      have := coreRun_refused Sys2Proof.core hs j
      exact absurd (h.symm.trans this) (by simp)

/-! ## A scan, cell by cell -/

/-- What no step of a running command changes. -/
structure SameCommand (s t : State) : Prop where
  cfg : t.cfg = s.cfg
  params : t.params = s.params
  errCode : t.errCode = s.errCode
  actOp : t.actOp = s.actOp
  actPred : t.actPred = s.actPred
  src : t.src = s.src
  schedule : t.schedule = s.schedule
  received : t.received = s.received

theorem SameCommand.rfl' (s : State) : SameCommand s s := ⟨rfl, rfl, rfl, rfl, rfl, rfl, rfl, rfl⟩

theorem SameCommand.trans {s t u : State} (h : SameCommand s t) (h' : SameCommand t u) : SameCommand s u :=
  ⟨h'.cfg.trans h.cfg, h'.params.trans h.params, h'.errCode.trans h.errCode, h'.actOp.trans h.actOp,
    h'.actPred.trans h.actPred, h'.src.trans h.src, h'.schedule.trans h.schedule, h'.received.trans h.received⟩

/-- The loop of the latched operation over a list of cells (rules R101, R102). -/
def opCells (op : Op) (p : Params) (src : Memory) (cells : List (Nat × Nat)) (dst : Memory) : Memory :=
  match op with
  | .enc => encCells p src cells dst
  | .dec => decCells p src cells dst

/-- The word the latched operation writes at a cell (rule R100). -/
def opWord (op : Op) (p : Params) (src dst : Memory) (c : Nat × Nat) : Word :=
  match op with
  | .enc => encWord pred32 p src c.1 c.2
  | .dec => decWord pred32 p src dst c.1 c.2

theorem opCells_append_one (op : Op) (p : Params) (src : Memory) (cells : List (Nat × Nat)) (c : Nat × Nat) (dst : Memory) :
    opCells op p src (cells ++ [c]) dst =
      (opCells op p src cells dst).write (p.cellOffset c.1 c.2) (opWord op p src (opCells op p src cells dst) c) := by
  cases op <;> exact List.foldl_append ..

/-- With no turn listed there is none to take off. -/
theorem popTurn_quiet {s : State} (h : s.schedule = []) : s.popTurn = s := by
  unfold State.popTurn
  rw [h, List.tail_nil, ← h]

/-- Where a running command stands before its `k`-th step. -/
structure AtCell (s : State) (k : Nat) : Prop where
  inv : s.Inv
  busy : s.state = .busy
  x : s.curX = (nthCell s.params k).1
  y : s.curY = (nthCell s.params k).2

/-- One turn of the engine in a running command (rules R100, R104). -/
theorem AtCell.turn {s : State} {k : Nat} (h : AtCell s k) (hk : k < s.params.regionW * s.params.regionH) :
    ∃ t, engineTurn s = .next t ∧ SameCommand s t ∧ t.Inv ∧
      t.dst = s.dst.write (s.params.cellOffset (nthCell s.params k).1 (nthCell s.params k).2)
        (opWord s.actOp s.params s.src s.dst (nthCell s.params k)) ∧
      (k + 1 < s.params.regionW * s.params.regionH → AtCell t (k + 1)) ∧
      (k + 1 = s.params.regionW * s.params.regionH → t.state = .done) := by
  obtain ⟨hi, hb, hx, hy⟩ := h
  have hstep : engineTurn s = .next (advance (storeDst (offset s) (outWord pred32 s) s)) := by
    rw [engineTurn, if_pos hb, cell_eq hi hb]
  have hinv := advance_inv (storeDst_inv (v := outWord pred32 s) hi (offset_lt hi hb)) hb
  obtain ⟨f1, f2, f3, f4, f5, f6, f7, f8, f9⟩ := advance_frame (storeDst (offset s) (outWord pred32 s) s)
  have hw : 0 < s.params.regionW := Nat.pos_of_ne_zero fun h0 => by simp [h0] at hk
  have hsucc := nthCell_succ (p := s.params) (k := k) hw
  have hdiv := Nat.div_add_mod k s.params.regionW
  have hmod := Nat.mod_lt k hw
  refine ⟨_, hstep, ⟨f1, f2, f3, f4, f5, f6, f8, f9⟩, hinv, ?_, ?_, ?_⟩
  · rw [f7, storeDst_dst]
    unfold offset outWord opWord
    cases s.actOp <;> simp only [hx, hy]
  · intro hk1
    rcases advance_cases (storeDst (offset s) (outWord pred32 s) s) with ⟨h1, he⟩ | ⟨h1, h2, he⟩ | ⟨h1, h2, he⟩
    · rw [storeDst_curX, storeDst_params, hx] at h1
      refine ⟨hinv, by rw [he]; exact hb, ?_, ?_⟩
      · rw [f2, storeDst_params, hsucc.1 h1, he, storeDst_curX, hx]
      · rw [f2, storeDst_params, hsucc.1 h1, he]; exact hy
    · rw [storeDst_curX, storeDst_params, hx] at h1
      refine ⟨hinv, by rw [he]; exact hb, ?_, ?_⟩
      · rw [f2, storeDst_params, hsucc.2 h1, he]; rfl
      · rw [f2, storeDst_params, hsucc.2 h1, he, storeDst_curY, hy]
    · exfalso
      rw [storeDst_curX, storeDst_params, hx] at h1
      rw [storeDst_curY, storeDst_params, hy] at h2
      have := nthCell_inRegion hk1
      rw [hsucc.2 h1] at this
      exact h2 this.2.2.2
  · intro hk1
    have hlast : k % s.params.regionW + 1 = s.params.regionW ∧ k / s.params.regionW + 1 = s.params.regionH := by
      have h1 : (k + 1) / s.params.regionW = s.params.regionH := by rw [hk1, Nat.mul_div_cancel_left _ hw]
      have h2 : (k + 1) % s.params.regionW = 0 := by rw [hk1, Nat.mul_mod_right]
      have h3 : k % s.params.regionW + 1 = s.params.regionW := by
        by_contra hne
        have hlt : k % s.params.regionW + 1 < s.params.regionW := by omega
        have : (k + 1) % s.params.regionW = k % s.params.regionW + 1 := by
          rw [Nat.add_mod, Nat.mod_eq_of_lt (show 1 < s.params.regionW by omega), Nat.mod_eq_of_lt hlt]
        omega
      refine ⟨h3, ?_⟩
      have h4 : k + 1 = s.params.regionW * (k / s.params.regionW + 1) := by rw [Nat.mul_add, Nat.mul_one]; omega
      rw [h4, Nat.mul_div_cancel_left _ hw] at h1
      exact h1
    rcases advance_cases (storeDst (offset s) (outWord pred32 s) s) with ⟨h1, he⟩ | ⟨h1, h2, he⟩ | ⟨h1, h2, he⟩
    · exfalso
      rw [storeDst_curX, storeDst_params, hx] at h1
      unfold nthCell Params.regionRight at h1
      simp only at h1
      omega
    · exfalso
      rw [storeDst_curY, storeDst_params, hy] at h2
      unfold nthCell Params.regionBottom at h2
      simp only at h2
      omega
    · rw [he]; rfl

/-- The run of a command from its first cell (rules R101, R102, R105): after `k` steps the first `k` cells of the scan have
been processed in order. -/
theorem AtCell.run {s : State} (h : AtCell s 0) (hq : s.schedule = []) {k : Nat} (hk : k ≤ s.params.regionW * s.params.regionH)
    (hn : 0 < s.params.regionW * s.params.regionH) :
    ∃ t, run k s = .next t ∧ SameCommand s t ∧ t.Inv ∧
      t.dst = opCells s.actOp s.params s.src ((regionCells s.params).take k) s.dst ∧
      (k < s.params.regionW * s.params.regionH → AtCell t k) ∧
      (k = s.params.regionW * s.params.regionH → t.state = .done) := by
  induction k with
  | zero =>
    refine ⟨s, rfl, SameCommand.rfl' s, h.inv, ?_, fun _ => h, fun h0 => by omega⟩
    cases s.actOp <;> rfl
  | succ k ih =>
    obtain ⟨t, hrun, hsame, -, hdst, hat, -⟩ := ih (by omega)
    obtain ⟨u, hturn, hsame', hinv', hdst', hat', hdone'⟩ := (hat (by omega)).turn (by rw [hsame.params]; omega)
    have hstep : step t = .next u := by
      rw [← hturn, step_engine (Or.inl (hsame.schedule.trans hq)), popTurn_quiet (hsame.schedule.trans hq)]
    rw [hsame.params] at hdst' hat' hdone'
    refine ⟨u, ?_, hsame.trans hsame', hinv', ?_, hat', hdone'⟩
    · rw [run_add hrun 1]
      exact run_one hstep
    · have hlen : k < (regionCells s.params).length := by rw [regionCells_length]; omega
      have hget : (regionCells s.params)[k] = nthCell s.params k := by
        simp only [regionCells_eq_map, List.getElem_map, List.getElem_range]
      rw [hdst', List.take_succ_eq_append_getElem hlen, hget, opCells_append_one, hsame.actOp, hsame.src, ← hdst]

/-! ## A command from its issue -/

/-- The operation a command latches (rule R52). -/
def opOf : Instr → Op
  | .enc _ => .enc
  | .dec _ => .dec

theorem ofBit_cmdOp_encode (i : Instr) : Op.ofBit (cmdOp (encode i)) = opOf i := by
  cases i with
  | enc q => rw [cmdOp_encode_enc]; rfl
  | dec q => rw [cmdOp_encode_dec]; rfl

/-- An accepted command on a region with cells starts its scan (rules R96, R98). -/
theorem exec_starts {s : State} {i : Instr} (hi : i.wf = true) (hb : s.state ≠ .busy) (ha : s.params.accepted s.cfg.nwords)
    (hw : s.params.regionW ≠ 0) (hh : s.params.regionH ≠ 0) :
    exec i s = .next { s with
      errCode := none
      actOp := opOf i
      actPred := 0#3
      curX := s.params.originX
      curY := s.params.originY
      state := .busy } := by
  have hpass := startCheck_encode (n := s.cfg.nwords) hi ha
  have hpred : cmdPred (encode i) = 0#3 := (startCheck_eq_none.mp hpass).2.1
  have he : ¬ s.params.regionEmpty = true := by rw [regionEmpty_iff]; omega
  rw [exec_eq_issue, issue_pass hb hpass, startScan, if_neg (by exact he)]
  simp only [latchCommand, ofBit_cmdOp_encode, hpred]

/-- A command issued by itself (rules R96, R101, R102, R105): for every `k` up to the number of the region's cells, the
state after `k` steps. -/
theorem command_run {s : State} {i : Instr} (hs : s.ready) (hi : i.wf = true) {k : Nat}
    (hk : k ≤ s.params.regionW * s.params.regionH) :
    ∃ t u, exec i s = .next t ∧ run k t = .next u ∧ u.Inv ∧
      u.cfg = s.cfg ∧ u.params = s.params ∧ u.errCode = none ∧ u.src = s.src ∧ u.schedule = [] ∧
      u.received = s.received ∧ u.actOp = opOf i ∧ u.actPred = 0#3 ∧
      u.dst = opCells (opOf i) s.params s.src ((regionCells s.params).take k) s.dst ∧
      (k < s.params.regionW * s.params.regionH → u.state = .busy ∧ u.curX = (nthCell s.params k).1 ∧
        u.curY = (nthCell s.params k).2) ∧
      (k = s.params.regionW * s.params.regionH → u.state = .done) := by
  obtain ⟨hinv, hb, hq, ha⟩ := hs
  have hexec := exec_eq_issue i s
  have hpass := startCheck_encode (n := s.cfg.nwords) hi ha
  have hissue := issue_inv (c := encode i) hinv
  have hpred : cmdPred (encode i) = 0#3 := (startCheck_eq_none.mp hpass).2.1
  rcases issue_cases (encode i) s with ⟨h, -⟩ | ⟨-, code, h, -⟩ | ⟨-, -, hr, he⟩ | ⟨-, hc, hr, he⟩
  · exact absurd h hb
  · rw [hpass] at h; cases h
  · rw [regionEmpty_iff] at hr
    have hn : s.params.regionW * s.params.regionH = 0 := by rcases hr with h | h <;> simp [h]
    obtain rfl : k = 0 := by omega
    rw [he] at hexec hissue
    refine ⟨_, _, hexec, rfl, hissue, rfl, rfl, rfl, rfl, hq, rfl, ofBit_cmdOp_encode i, hpred,
      ?_, fun h => by omega, fun _ => rfl⟩
    cases i <;> rfl
  · have hr' : ¬ (s.params.regionW = 0 ∨ s.params.regionH = 0) := by rw [← regionEmpty_iff, hr]; simp
    have hn : 0 < s.params.regionW * s.params.regionH := Nat.mul_pos (by omega) (by omega)
    rw [he] at hexec hissue
    have hat : AtCell { latchCommand (encode i) s with
        curX := s.params.originX, curY := s.params.originY, state := .busy } 0 :=
      ⟨hissue, rfl, by simp [nthCell], by simp [nthCell]⟩
    obtain ⟨u, hrun, hsame, huinv, hdst, hbusy, hdone⟩ := hat.run hq hk hn
    refine ⟨_, u, hexec, hrun, huinv, hsame.cfg, hsame.params, hsame.errCode, hsame.src, hsame.schedule.trans hq,
      hsame.received, hsame.actOp.trans (ofBit_cmdOp_encode i), hsame.actPred.trans hpred, ?_, ?_, hdone⟩
    · rw [hdst]
      simp only [latchCommand_actOp, ofBit_cmdOp_encode]
      rfl
    · intro hlt
      obtain ⟨-, h2, h4, h5⟩ := hbusy hlt
      rw [hsame.params] at h4 h5
      exact ⟨h2, h4, h5⟩

theorem take_all_regionCells (p : Params) : (regionCells p).take (p.regionW * p.regionH) = regionCells p :=
  List.take_of_length_le (by rw [regionCells_length])

end Sys2Proof.Machine
end

