-- ==== Sys2Proof/Tests/Slice0.lean ====
section
/-! SUPPORT. The model's own tests. Expected values come from spec/95_test_vectors.md or are written out by hand from the
rules named; the witness theorems at the end show, for each statement with hypotheses, states that meet them. -/

namespace Sys2Proof.Tests

open Sys2Proof Sys2Proof.Machine

/-! ## Well-formedness -/

theorem test_wf_accepts_med : (Instr.enc 0#3).wf = true ∧ (Instr.dec 0#3).wf = true := by decide

theorem test_wf_refuses_reserved_predictor : (Instr.enc 1#3).wf = false ∧ (Instr.dec 7#3).wf = false := by decide

/-! ## Decoding (rule R52: bits 7:4 RSV, 3:1 PRED, 0 OP; rule R57; vectors S8 to S12) -/

theorem test_decode_enc : decode 0b0000_000_0#8 = .ok (.enc 0#3) := by decide

theorem test_decode_dec : decode 0b0000_000_1#8 = .ok (.dec 0#3) := by decide

theorem test_decode_reserved_predictors :
    decode 0b0000_001_0#8 = .ok (.enc 1#3) ∧ decode 0b0000_001_1#8 = .ok (.dec 1#3) ∧
      decode 0b0000_100_0#8 = .ok (.enc 4#3) := by decide

theorem test_decode_reserved_bits :
    decode 0b0001_000_0#8 = .error (.reservedBits 1#4) ∧ decode 0b1111_000_1#8 = .error (.reservedBits 15#4) := by decide

theorem test_encode_bytes : encode (.enc 0#3) = 0x00#8 ∧ encode (.dec 0#3) = 0x01#8 ∧ encode (.dec 5#3) = 0x0B#8 := by
  decide

theorem test_table_words : decodeTableWord 8 0x00 = some (.enc 0#3) ∧ decodeTableWord 8 0x01 = some (.dec 0#3) ∧
    decodeTableWord 8 0x10 = none := by decide

/-! ## Lanes, predictor and residual arithmetic (vectors 2.1 to 2.6) -/

theorem test_lane : lane 0x7F0C3CFF#32 3 = 0x7F#8 ∧ lane 0x7F0C3CFF#32 2 = 0x0C#8 ∧ lane 0x7F0C3CFF#32 1 = 0x3C#8 ∧
    lane 0x7F0C3CFF#32 0 = 0xFF#8 := by decide

theorem test_pack4 : pack4 0x10 0xFB 0x5A 0xFF = 0x10FB5AFF#32 ∧ pack4 0x1FF 0x00 0x100 0x01 = 0xFF000001#32 := by decide

theorem test_med8 :
    med8 255 255 0 = 255 ∧ med8 0 0 255 = 0 ∧ med8 40 20 10 = 40 ∧ med8 100 200 150 = 150 ∧ med8 100 200 250 = 100 ∧
      med8 100 200 50 = 200 ∧ med8 5 5 9 = 5 ∧ med8 1 2 3 = 1 ∧ med8 128 127 1 = 128 ∧ med8 127 128 255 = 127 ∧
      med8 254 255 1 = 255 ∧ med8 200 200 100 = 200 ∧ med8 255 12 16 = 251 := by decide

theorem test_rsub8 : rsub8 5 250 = 11 ∧ rsub8 0 255 = 1 ∧ rsub8 100 200 = 156 ∧ rsub8 127 255 = 128 := by decide

theorem test_radd8 : radd8 11 250 = 5 ∧ radd8 255 1 = 0 ∧ radd8 156 200 = 100 := by decide

theorem test_rsub32 : rsub32 0x00000000#32 0x01010101#32 = 0xFFFFFFFF#32 ∧
    rsub32 0x10203040#32 0x20103050#32 = 0xF01000F0#32 ∧ rsub32 0x20FE64C8#32 0x10FB5AFF#32 = 0x10030AC9#32 := by decide

theorem test_radd32 : radd32 0xFFFFFFFF#32 0x01010101#32 = 0#32 ∧ radd32 0x10030AC9#32 0x10FB5AFF#32 = 0x20FE64C8#32 := by
  decide

/-- A memory holding the listed words from index 0 on. -/
def memOf (ws : List Word) : Memory := ws.zipIdx.foldl (fun m c => m.write c.2 c.1) []

/-- The buffer of vectors N1 to N9: word `i` is `000000A0 + i`. -/
def bufferN : Memory := memOf [0xA0, 0xA1, 0xA2, 0xA3, 0xA4, 0xA5, 0xA6, 0xA7, 0xA8, 0xA9, 0xAA, 0xAB]

theorem test_nfetch_edges :
    nfetch bufferN 4 0 0 = ⟨0, 0, 0⟩ ∧ nfetch bufferN 4 3 3 = ⟨0xA2, 0, 0⟩ ∧ nfetch bufferN 4 0 4 = ⟨0, 0xA0, 0⟩ ∧
      nfetch bufferN 4 0 8 = ⟨0, 0xA4, 0⟩ := by decide

theorem test_nfetch_inside :
    nfetch bufferN 4 1 5 = ⟨0xA4, 0xA1, 0xA0⟩ ∧ nfetch bufferN 4 3 11 = ⟨0xAA, 0xA7, 0xA6⟩ ∧
      nfetch bufferN 1 0 3 = ⟨0, 0xA2, 0⟩ := by decide

/-- The pixel buffer `P` of program P3. -/
def pixelsP3 : Memory := memOf [0xFF000A80, 0xFE051480, 0x00FA1E7F, 0x01F02881, 0x80103200, 0x7F0C3CFF, 0x8108460A,
  0x0004500A, 0x10FF5A64, 0x20FE64C8, 0x30FD6E32, 0x40FC7896]

/-- Program P3: the predictions of cells (1,2), (2,1) and (3,2). -/
theorem test_pred32 : pred32 pixelsP3 4 3 1 2 9 = 0x10FB5AFF#32 ∧ pred32 pixelsP3 4 3 2 1 6 = 0x00FA3CFE#32 ∧
    pred32 pixelsP3 4 3 3 2 11 = 0x00F96E32#32 := by decide

/-! ## The start check (vectors of section 2.7, NWORDS = 16) -/

theorem test_start_check_passes :
    startCheck 0x00 16 ⟨4, 3, 0, 0, 4, 3⟩ = none ∧ startCheck 0x01 16 ⟨4, 3, 2, 0, 2, 3⟩ = none ∧
      startCheck 0x00 16 ⟨4, 4, 0, 0, 4, 4⟩ = none ∧ startCheck 0x01 16 ⟨4, 3, 4, 3, 0, 0⟩ = none ∧
      startCheck 0x00 16 ⟨0, 5, 0, 0, 0, 5⟩ = none := by decide

theorem test_start_check_faults :
    startCheck 0x00 16 ⟨5, 4, 0, 0, 5, 4⟩ = some .eSize ∧ startCheck 0x00 16 ⟨4, 3, 3, 0, 2, 3⟩ = some .eRegionX ∧
      startCheck 0x00 16 ⟨4, 3, 0, 2, 4, 2⟩ = some .eRegionY ∧ startCheck 0x00 16 ⟨4, 3, 3, 0, 2, 4⟩ = some .eRegionX ∧
      startCheck 0x10 16 ⟨4, 3, 0, 0, 4, 3⟩ = some .eCmd ∧ startCheck 0x03 16 ⟨4, 3, 0, 0, 1, 1⟩ = some .ePred ∧
      startCheck 0x12 16 ⟨9, 9, 9, 9, 9, 9⟩ = some .eCmd ∧ startCheck 0x01 16 ⟨4, 3, 5, 0, 0, 0⟩ = some .eRegionX ∧
      startCheck 0x00 16 ⟨65535, 65535, 0, 0, 1, 1⟩ = some .eSize := by decide

/-! ## Single steps -/

/-- A property of the next state, false when there is none. -/
def after (o : Host.Outcome State Fault Refusal) (f : State → Bool) : Bool :=
  match o with
  | .next s => f s
  | _ => false

/-- The state of programs P1 and P2 before the command: registers (3,2,0,0,3,2). -/
def programP1 (src dst : Memory) : State :=
  { State.resetWith Config.reference src dst with params := ⟨3, 2, 0, 0, 3, 2⟩ }

/-- SRC of program P1. -/
def srcP1 : Memory := memOf [0x0A0A0A0A, 0x14141414, 0x1E1E1E1E, 0x28282828, 0x32323232, 0x3C3C3C3C]

/-- Program P1 at its step 4, cell (1,1): four residuals are in DST. -/
def encodeAtCell4 : State :=
  { programP1 srcP1 (memOf [0x0A0A0A0A, 0x0A0A0A0A, 0x0A0A0A0A, 0x1E1E1E1E]) with state := .busy, curX := 1, curY := 1 }

/-- Program P2 at its step 5, the last cell (2,1): five pixels are in DST. -/
def decodeAtCell5 : State :=
  { programP1 (memOf [0x0A0A0A0A, 0x0A0A0A0A, 0x0A0A0A0A, 0x1E1E1E1E, 0x0A0A0A0A, 0x0A0A0A0A])
      (memOf [0x0A0A0A0A, 0x14141414, 0x1E1E1E1E, 0x28282828, 0x32323232]) with
    state := .busy, actOp := .dec, curX := 2, curY := 1 }

theorem test_enc_issue : after (exec (.enc 0#3) (programP1 srcP1 []))
    (fun t => statusByte t == 0x01#8 && t.actOp == .enc && t.curX == 0 && t.curY == 0) = true := by decide

theorem test_dec_issue_of_tile : after (exec (.dec 0#3) { State.reset with params := ⟨4, 3, 2, 0, 2, 3⟩ })
    (fun t => statusByte t == 0x01#8 && t.actOp == .dec && t.curX == 2 && t.curY == 0) = true := by decide

/-- Program P1, step 4: OUTW = 0A0A0A0A at offset 4, then cell (2,1). -/
theorem test_enc_cell : after (step encodeAtCell4)
    (fun t => t.dst.read 4 == 0x0A0A0A0A#32 && t.curX == 2 && t.curY == 1 && statusByte t == 0x01#8) = true := by decide

/-- Program P2, step 5: OUTW = 3C3C3C3C at offset 5, then DONE. -/
theorem test_dec_cell : after (step decodeAtCell5)
    (fun t => t.dst.read 5 == 0x3C3C3C3C#32 && t.dst.read 4 == 0x32323232#32 && statusByte t == 0x02#8) = true := by decide

/-- Program P6: the command straight after reset is DONE at issue. -/
theorem test_command_after_reset : after (step (State.reset.withFetchWord 8 0x00)) (fun t => statusByte t == 0x02#8) = true := by
  decide

/-- Program P5: registers (4,3,3,0,2,3) give STATUS 43. -/
theorem test_rejected_command : after (exec (.enc 0#3) { State.reset with params := ⟨4, 3, 3, 0, 2, 3⟩ })
    (fun t => statusByte t == 0x43#8 && t.params == ⟨4, 3, 3, 0, 2, 3⟩) = true := by decide

/-- Section 2.9: a register write and its read back, an ignored write of STATUS and of index 9. -/
theorem test_register_writes :
    after (writeReg 0 0x1234 State.reset) (fun t => readReg 0 t == 0x1234) = true ∧
      after (writeReg 7 0xFF State.reset) (fun t => t == State.reset) = true ∧
      after (writeReg 9 5 State.reset) (fun t => t == State.reset && readReg 9 t == 0) = true ∧
      after (writeReg 0 9 encodeAtCell4) (fun t => t == encodeAtCell4) = true := by decide

/-- Program P9 for one state: a reset while BUSY clears the registers and leaves DST. -/
theorem test_reset_while_busy : after (hostAct .reset encodeAtCell4)
    (fun t => statusByte t == 0x00#8 && t.params == ⟨0, 0, 0, 0, 0, 0⟩ && t.dst == encodeAtCell4.dst) = true := by decide

/-! ## Witnesses: states that meet the hypotheses of the statements -/

/-- A state with the given turns to come. -/
def withTurns (turns : List Turn) (s : State) : State := { s with schedule := turns }

/-- A command is ready on a whole 3x2 raster. -/
def readyWhole : State := programP1 srcP1 []

/-- A command is ready on the one cell (1,1) of a 3x2 raster, with the border of rule R123 in DST and the residual of
program P1 in SRC. -/
def readyInner : State :=
  { State.resetWith Config.reference [(4, 0x0A0A0A0A)]
      (memOf [0x0A0A0A0A, 0x14141414, 0x1E1E1E1E, 0x28282828]) with params := ⟨3, 2, 1, 1, 1, 1⟩ }

theorem witness_EncodeOfDecode : decode 0x01#8 = .ok (.dec 0#3) ∧ cmdRsv 0x10#8 ≠ 0#4 ∧ cmdRsv 0x0F#8 = 0#4 := by decide

theorem witness_ByteClasses : State.reset.state ≠ .busy ∧ cmdRsv 0x10#8 ≠ 0#4 ∧ cmdRsv 0xFF#8 ≠ 0#4 ∧
    cmdRsv 0x02#8 = 0#4 ∧ cmdPred 0x02#8 ≠ 0#3 ∧ cmdRsv 0x0F#8 = 0#4 ∧ cmdPred 0x0F#8 ≠ 0#3 := by decide

theorem witness_StepRunsDecodedCommand :
    (State.reset.withFetchWord 8 0x01).schedule = .host (.write 6 0x01) :: [] ∧
      (State.reset.withFetchWord 8 0x01).state ≠ .busy ∧ decode (BitVec.ofNat 8 0x01) = .ok (.dec 0#3) := by decide

/-- BUSY; a failed check; a passed check with an empty region; a passed check with cells. -/
theorem witness_CommandIssue :
    encodeAtCell4.state = .busy ∧
      startCheck (BitVec.ofNat 8 0x10) readyWhole.cfg.nwords readyWhole.params = some .eCmd ∧
      startCheck (BitVec.ofNat 8 0x00) State.reset.cfg.nwords State.reset.params = none ∧ State.reset.params.regionW = 0 ∧
      startCheck (BitVec.ofNat 8 0x01) readyWhole.cfg.nwords readyWhole.params = none ∧
      ¬ (readyWhole.params.regionW = 0 ∨ readyWhole.params.regionH = 0) ∧ readyWhole.state ≠ .busy ∧
      State.reset.state ≠ .busy := by decide

/-- Each branch of the check at the edge of its range; the guarantee has a cell to speak of. -/
theorem witness_StartCheckOrder :
    startCheck 0x10 16 ⟨4, 4, 0, 0, 4, 4⟩ = some .eCmd ∧ startCheck 0x02 16 ⟨4, 4, 0, 0, 4, 4⟩ = some .ePred ∧
      startCheck 0x00 15 ⟨4, 4, 0, 0, 4, 4⟩ = some .eSize ∧ startCheck 0x00 16 ⟨4, 4, 1, 0, 4, 4⟩ = some .eRegionX ∧
      startCheck 0x00 16 ⟨4, 4, 0, 1, 4, 4⟩ = some .eRegionY ∧ startCheck 0x00 16 ⟨4, 4, 0, 0, 4, 4⟩ = none ∧
      Params.inRegion ⟨4, 4, 0, 0, 4, 4⟩ 3 3 := by decide

/-- For a command and for a byte that is none. -/
theorem witness_FaultIsPrecise :
    readyWhole.state ≠ .busy ∧ startCheck 0xF1#8 readyWhole.cfg.nwords readyWhole.params = some .eCmd ∧
      startCheck (encode (.enc 1#3)) readyWhole.cfg.nwords readyWhole.params = some .ePred ∧
      after (exec (.enc 1#3) readyWhole) (fun t => decide (t.state ≠ .busy)) = true := by decide

/-- A command that faults in ERROR with another code, and one that ERROR accepts. -/
theorem witness_RefaultsTheSame :
    startCheck (encode (.enc 1#3)) readyWhole.cfg.nwords readyWhole.params = some .ePred ∧
      after (exec (.enc 1#3) { readyWhole with state := .error, errCode := some .eSize })
        (fun t => statusByte t == 0x23#8) = true ∧
      after (exec (.enc 0#3) { readyWhole with state := .error, errCode := some .eSize })
        (fun t => statusByte t == 0x01#8) = true := by decide

theorem witness_BusyState : encodeAtCell4.state = .busy ∧ encodeAtCell4.Inv ∧ encodeAtCell4.engineMoves ∧
    encodeAtCell4.actOp = .enc := by decide

theorem witness_EmptyRegionCommand :
    State.reset.state ≠ .busy ∧ State.reset.params.accepted State.reset.cfg.nwords ∧ State.reset.params.regionW = 0 ∧
      State.reset.params.regionH = 0 := by decide

/-- A value at the edge of the width, in a state that is not BUSY, and a BUSY state. -/
theorem witness_RegisterAccess :
    State.reset.state ≠ .busy ∧ 65535 < 2 ^ State.reset.cfg.cw ∧ 7 ≤ 7 ∧ encodeAtCell4.state = .busy ∧
      (withTurns [.host (.read 7)] State.reset).schedule = .host (.read 7) :: [] ∧
      (withTurns [.host (.write 5 65535)] State.reset).schedule = .host (.write 5 65535) :: [] := by decide

/-- A step of each row of rule R14's table, from states of the invariant; the same states serve the statements on ERRCODE,
the latched fields, the parameter registers and SRC. First the rows of a BUSY engine. -/
theorem witness_StateTransitions_busy :
    (after (step (withTurns [.host .reset] encodeAtCell4)) (fun t => t.state == .idle) &&
      after (step encodeAtCell4) (fun t => t.state == .busy) &&
      after (step decodeAtCell5) (fun t => t.state == .done) &&
      after (step (withTurns [.host (.write 6 1)] encodeAtCell4)) (fun t => t.state == .busy)) = true ∧
      encodeAtCell4.Inv ∧ decodeAtCell5.Inv := by decide

/-- The rows of an engine that is not BUSY. -/
theorem witness_StateTransitions_issue :
    (after (step (withTurns [.host (.write 6 0x10)] readyWhole)) (fun t => t.state == .error) &&
      after (step (withTurns [.host (.write 6 0)] State.reset)) (fun t => t.state == .done) &&
      after (step (withTurns [.host (.write 6 0)] readyWhole)) (fun t => t.state == .busy)) = true ∧
      readyWhole.Inv ∧ State.reset.Inv := by decide

theorem witness_OnlyHostChangesParamsAndSrc :
    after (step (withTurns [.host (.write 5 1)] State.reset)) (fun t => t.params != State.reset.params) = true ∧
      after (step (withTurns [.host .reset] readyWhole)) (fun t => t.params != readyWhole.params) = true ∧
      after (step (withTurns [.host (.writeWord .src 15 1)] State.reset)) (fun t => t.src != State.reset.src) = true := by
  decide

/-- The last index of a buffer, and WAIT in a state of each kind. -/
theorem witness_HostBufferMoves :
    (withTurns [.host (.writeWord .dst 15 1)] State.reset).state ≠ .busy ∧ 15 < State.reset.cfg.nwords ∧
      (withTurns [.host .wait] State.reset).schedule = .host .wait :: [] ∧
      (withTurns [.host .wait] encodeAtCell4).state = .busy := by decide

/-- A command that is DONE at issue and one that is rejected. -/
theorem witness_CommandFrame :
    after (exec (.enc 0#3) State.reset) (fun t => decide (t.state ≠ .busy)) = true ∧
      after (exec (.dec 3#3) State.reset) (fun t => decide (t.state = .error)) = true := by decide

/-- The first and the last column, and both rows, of a raster. -/
theorem witness_NeighbourPolicy : 0 < 4 ∧ 3 < 4 ∧ (3 : Nat) = 0 * 4 + 3 ∧ (4 : Nat) = 1 * 4 + 0 := by decide

/-- Two buffers that agree below a cell and differ above it. -/
theorem witness_PredictionReadsEarlierCells :
    (2 < 3 ∧ ∀ i, i < 0 * 3 + 2 → Memory.read [] i = Memory.read [(7, 1)] i) ∧
      (∀ x' y', isNeighbour 2 0 x' y' → Memory.read [] (y' * 3 + x') = Memory.read [(7, 1)] (y' * 3 + x')) := by
  refine ⟨⟨by decide, fun i hi => ?_⟩, fun x' y' h => ?_⟩
  · rw [Memory.read, Memory.read, if_neg (by omega), Memory.read]
  · rw [Memory.read, Memory.read, if_neg (by omega), Memory.read]

theorem witness_LeftColumnLaw : srcP1.wf 16 = true ∧ 0 < 2 ∧ 0 < 1 ∧ 2 ≤ 2 := by decide

theorem witness_MemoryStaysCanonical : srcP1.wf 16 = true ∧ 15 < 16 ∧ ∀ i, i < 16 → srcP1.read i = srcP1.read i :=
  ⟨by decide, by decide, fun _ _ => rfl⟩

theorem witness_CellStep_dec : decodeAtCell5.Inv ∧ decodeAtCell5.state = .busy ∧ decodeAtCell5.engineMoves ∧
    decodeAtCell5.actOp = .dec := by decide

/-- The three cases of ADVANCE, and both moves with the invariant. -/
theorem witness_AdvanceMoves :
    encodeAtCell4.curX + 1 < 0 + 3 ∧ { encodeAtCell4 with curX := 2, curY := 0 }.Inv ∧ ¬ 2 + 1 < 0 + 3 ∧ 0 + 1 < 0 + 2 ∧
      ¬ decodeAtCell5.curX + 1 < 0 + 3 ∧ ¬ decodeAtCell5.curY + 1 < 0 + 2 ∧
      after (exec (.enc 0#3) readyWhole) (fun t => t.state == .busy) = true := by decide

theorem witness_IdleEngineWaits : State.reset.engineMoves ∧ State.reset.state ≠ .busy := by decide

theorem witness_ResetMeetsInvariant : ({ cw := 1, nwords := 4 } : Config).wf = true ∧ Memory.wf 4 [(3, 1)] = true := by
  decide

/-- The host's buffer moves: BUSY, the last index, the first index that does not exist. -/
theorem witness_StepsNeverStick :
    encodeAtCell4.Inv ∧ State.reset.Inv ∧ encodeAtCell4.state = .busy ∧ State.reset.state ≠ .busy ∧
      15 < State.reset.cfg.nwords ∧ State.reset.cfg.nwords ≤ 16 ∧ HostAction.wait.onRegisters = true := by decide

theorem witness_ResetEvent : (withTurns [.host .reset] encodeAtCell4).schedule = .host .reset :: [] := by decide

/-- A whole raster, its region with the cell (0,0), and a number of steps before the last: the hypotheses of the statements
on whole commands, on reset while BUSY, on the boundary and on the whole-raster round trips. -/
theorem witness_ready_whole : readyWhole.ready ∧ readyWhole.params.full ∧ readyWhole.params.inRegion 0 0 ∧
    5 < readyWhole.params.regionW * readyWhole.params.regionH ∧ (Instr.dec 0#3).wf = true ∧
    readyWhole.params.inRegion 2 1 := by decide

/-- The second state of a round trip: SRC is what the first command left. -/
def decodeBack : State := { readyWhole with src := encLoop readyWhole.params readyWhole.src readyWhole.dst }

/-- The second state of the converse. -/
def encodeBack : State := { readyWhole with src := decLoop readyWhole.params readyWhole.src readyWhole.dst }

theorem witness_RoundTripWholeRaster : decodeBack.ready ∧ decodeBack.params = readyWhole.params := by decide

theorem witness_EncodeOfDecodedRaster : encodeBack.ready ∧ encodeBack.params = readyWhole.params := by decide

/-- A ready state that differs from `readyWhole` in everything a command does not depend on. -/
def readyOther : State := { readyWhole with state := .error, errCode := some .eSize, curX := 9, actPred := 5#3 }

theorem witness_CommandDeterminism : readyOther.ready ∧ readyOther ≠ readyWhole ∧ readyOther.cfg = readyWhole.cfg ∧
    readyOther.params = readyWhole.params ∧ readyOther.src = readyWhole.src ∧ readyOther.dst = readyWhole.dst :=
  ⟨by decide, by decide, rfl, rfl, rfl, rfl⟩

theorem witness_RoundTripOneRegion : readyInner.ready ∧ holdsResiduals readyInner.params srcP1 readyInner.src ∧
    holdsBorder readyInner.params srcP1 readyInner.dst ∧ readyInner.params.inRegion 1 1 := by
  refine ⟨by decide, fun x y h => ?_, fun x y x' y' h hn _ => ?_, by decide⟩
  · have hx : x = 1 ∧ y = 1 := by simp only [readyInner, Params.inRegion] at h; omega
    obtain ⟨rfl, rfl⟩ := hx
    decide
  · have hx : x = 1 ∧ y = 1 := by simp only [readyInner, Params.inRegion] at h; omega
    obtain ⟨rfl, rfl⟩ := hx
    have hc : (x' = 0 ∧ y' = 1) ∨ (x' = 1 ∧ y' = 0) ∨ (x' = 0 ∧ y' = 0) := by omega
    rcases hc with ⟨rfl, rfl⟩ | ⟨rfl, rfl⟩ | ⟨rfl, rfl⟩ <;> decide

/-- The two one-cell tiles of a raster of two cells. -/
def tileA : Params := ⟨2, 1, 0, 0, 1, 1⟩

/-- The tile that needs `tileA` first. -/
def tileB : Params := ⟨2, 1, 1, 0, 1, 1⟩

theorem witness_TiledDecode :
    Memory.wf 4 [] = true ∧
      (∀ g ∈ [tileA, tileB], g.width = 2 ∧ g.height = 1 ∧ g.accepted 4 ∧ holdsResiduals g [] []) ∧
      (∀ x y, x < 2 → y < 1 → ∃ g ∈ [tileA, tileB], g.inRegion x y) ∧
      [tileA, tileB].Pairwise (fun g g' => ∀ x y, ¬ (g.inRegion x y ∧ g'.inRegion x y)) ∧
      (∀ pre g post, [tileA, tileB] = pre ++ g :: post → ∀ x y x' y', g.inRegion x y → isNeighbour x y x' y' →
        ¬ g.inRegion x' y' → ∃ g' ∈ pre, g'.inRegion x' y') := by
  have ha : ∀ x y, tileA.inRegion x y ↔ x = 0 ∧ y = 0 := fun x y => by simp only [tileA, Params.inRegion]; omega
  have hb : ∀ x y, tileB.inRegion x y ↔ x = 1 ∧ y = 0 := fun x y => by simp only [tileB, Params.inRegion]; omega
  refine ⟨rfl, ?_, fun x y hx hy => ?_, ?_, ?_⟩
  · intro g hg
    rcases List.mem_pair.mp hg with rfl | rfl
    · exact ⟨rfl, rfl, by decide, fun x y h => by obtain ⟨rfl, rfl⟩ := (ha x y).mp h; decide⟩
    · exact ⟨rfl, rfl, by decide, fun x y h => by obtain ⟨rfl, rfl⟩ := (hb x y).mp h; decide⟩
  · by_cases h : x = 0
    · exact ⟨tileA, by simp, (ha x y).mpr ⟨h, by omega⟩⟩
    · exact ⟨tileB, by simp, (hb x y).mpr ⟨by omega, by omega⟩⟩
  · refine List.pairwise_pair.mpr fun x y h => ?_
    have h1 := (ha x y).mp h.1
    have h2 := (hb x y).mp h.2
    omega
  · intro pre g post he x y x' y' hg hn hng
    match pre, he with
    | [], he =>
      simp only [List.nil_append, List.cons.injEq] at he
      obtain ⟨rfl, -⟩ := he
      have := (ha x y).mp hg
      omega
    | [q], he =>
      simp only [List.cons_append, List.nil_append, List.cons.injEq] at he
      obtain ⟨rfl, rfl, -⟩ := he
      have := (hb x y).mp hg
      exact ⟨tileA, by simp, (ha x' y').mpr (by omega)⟩
    | q :: q' :: rest, he =>
      have := congrArg List.length he
      simp at this

theorem witness_TiledEncode :
    Params.accepted 4 ⟨2, 1, 0, 0, 2, 1⟩ ∧ Memory.wf 4 [] = true ∧
      (∀ g ∈ [tileB, tileA], g.width = 2 ∧ g.height = 1 ∧ g.accepted 4 ∧
        ∀ x y, g.inRegion x y → Params.inRegion ⟨2, 1, 0, 0, 2, 1⟩ x y) ∧
      (∀ x y, Params.inRegion ⟨2, 1, 0, 0, 2, 1⟩ x y → ∃ g ∈ [tileB, tileA], g.inRegion x y) := by
  refine ⟨by decide, rfl, fun g hg => ?_, fun x y h => ?_⟩
  · rcases List.mem_pair.mp hg with rfl | rfl
    · exact ⟨rfl, rfl, by decide, fun x y h => by simp only [tileB, Params.inRegion] at h ⊢; omega⟩
    · exact ⟨rfl, rfl, by decide, fun x y h => by simp only [tileA, Params.inRegion] at h ⊢; omega⟩
  · by_cases h0 : x = 0
    · exact ⟨tileA, by simp, by simp only [tileA, Params.inRegion] at h ⊢; omega⟩
    · exact ⟨tileB, by simp, by simp only [tileB, Params.inRegion] at h ⊢; omega⟩

theorem witness_EncodeOrderFree : (regionCells tileB).reverse.Perm (regionCells tileB) ∧ tileB.accepted 4 :=
  ⟨List.reverse_perm _, by decide⟩

/-- Buffers that agree on lane 0, at the words the tile reads, and differ on lane 1 there and in a word it does not read. -/
theorem witness_LaneIndependence : tileB.accepted 4 ∧ Memory.wf 4 [(0, 0x205), (3, 0x9)] = true ∧ tileB.inRegion 1 0 ∧
    (∀ x y, tileB.inRegion x y → lane (Memory.read [(0, 0x105)] (tileB.cellOffset x y)) 0 =
      lane (Memory.read [(0, 0x205), (3, 0x9)] (tileB.cellOffset x y)) 0) ∧
    (∀ x y x' y', tileB.inRegion x y → isNeighbour x y x' y' →
      lane (Memory.read [(0, 0x105)] (tileB.cellOffset x' y')) 0 =
        lane (Memory.read [(0, 0x205), (3, 0x9)] (tileB.cellOffset x' y')) 0) := by
  refine ⟨by decide, by decide, by decide, fun x y h => ?_, fun x y x' y' h hn => ?_⟩
  · have hx : x = 1 ∧ y = 0 := by simp only [tileB, Params.inRegion] at h; omega
    obtain ⟨rfl, rfl⟩ := hx
    decide
  · have hx : x' = 0 ∧ y' = 0 := by simp only [tileB, Params.inRegion] at h; omega
    obtain ⟨rfl, rfl⟩ := hx
    decide

/-- One buffer whose lanes 0 and 1 hold one image. -/
theorem witness_LaneIndependence_replicated :
    ∀ i, lane (Memory.read [(0, 0x707)] i) 0 = lane (Memory.read [(0, 0x707)] i) 1 := by
  intro i
  by_cases h : i = 0
  · subst h; decide
  · simp only [Memory.read, if_neg (Ne.symm h)]; decide

/-- Residuals of a whole raster of one cell. -/
theorem witness_EncodeOfDecodedRaster_unique : Params.accepted 4 ⟨1, 1, 0, 0, 1, 1⟩ ∧ Params.full ⟨1, 1, 0, 0, 1, 1⟩ ∧
    holdsResiduals ⟨1, 1, 0, 0, 1, 1⟩ [(0, 7)] [(0, 7)] ∧ 0 < 1 * 1 := by
  refine ⟨by decide, by decide, fun x y h => ?_, by decide⟩
  have hx : x = 0 ∧ y = 0 := by simp only [Params.inRegion] at h; omega
  obtain ⟨rfl, rfl⟩ := hx
  decide

/-- A self-contained region, one that is not, and an empty one. -/
theorem witness_SelfContainedRegions : tileA.accepted 4 ∧ tileA.originX = 0 ∧ tileA.originY = 0 ∧ tileA.inRegion 0 0 ∧
    tileB.accepted 4 ∧ Params.accepted 4 ⟨2, 1, 2, 1, 0, 0⟩ := by decide

theorem witness_FirstRowAndColumn : Params.accepted 16 ⟨3, 2, 0, 0, 3, 2⟩ ∧ Params.full ⟨3, 2, 0, 0, 3, 2⟩ ∧
    0 < 2 ∧ 2 < 3 ∧ 1 < 2 := by decide

theorem witness_PseudoCommands :
    (withTurns (hostTurns (encodeRegion 3 2 0 0 3 2)) State.reset).Inv ∧ State.reset.state ≠ .busy ∧
      Params.fits State.reset.cfg.cw ⟨3, 2, 0, 0, 3, 2⟩ ∧ Params.accepted State.reset.cfg.nwords ⟨3, 2, 0, 0, 3, 2⟩ := by
  decide

end Sys2Proof.Tests
end

/-! # The register space and `ERRCODE` (spec/10_state.md) -/

namespace Sys2Proof.Machine

/-! ## The register space -/

/-- Rule R17's table of reads, index by index. -/
theorem readReg_table (index : Nat) (s : State) :
    readReg index s =
      if index = 0 then s.params.width else if index = 1 then s.params.height
      else if index = 2 then s.params.originX else if index = 3 then s.params.originY
      else if index = 4 then s.params.regionW else if index = 5 then s.params.regionH
      else if index = 7 then (statusByte s).toNat else 0 := by
  match index with
  | 0 | 1 | 2 | 3 | 4 | 5 => rfl
  | n + 6 => simp [readReg, Params.get]

/-- A register read only hands its answer to the host. -/
theorem step_read {s : State} {index : Nat} {rest : List Turn} (h : s.schedule = .host (.read index) :: rest) :
    step s = .next { s with schedule := rest, received := readReg index s :: s.received } := by
  rw [step_host h, popTurn_eq h]
  rfl

/-- A write to a BUSY engine is ignored, whatever its index. -/
theorem step_write_busy {s : State} {index v : Nat} {rest : List Turn}
    (h : s.schedule = .host (.write index v) :: rest) (hb : s.state = .busy) :
    step s = .next { s with schedule := rest } := by
  rw [step_host h, popTurn_eq h]
  exact if_pos hb

/-- A write to an engine that is not BUSY, of any index but CMD, is one of the parameter registers or of none. -/
theorem step_write_param {s : State} {index v : Nat} {rest : List Turn}
    (h : s.schedule = .host (.write index v) :: rest) (hb : s.state ≠ .busy) (hi : index ≠ 6) :
    step s = .next { s with schedule := rest, params := s.params.set index (v % 2 ^ s.cfg.cw) } := by
  rw [step_host h, popTurn_eq h]
  exact (if_neg hb).trans (if_neg hi)

/-- A write of CMD to an engine that is not BUSY gives the engine its command byte. -/
theorem step_write_command {s : State} {c : Byte} {rest : List Turn}
    (h : s.schedule = .host (.write 6 c.toNat) :: rest) (hb : s.state ≠ .busy) :
    step s = commandByte c { s with schedule := rest } := by
  rw [step_command h hb, popTurn_eq h, BitVec.ofNat_toNat, BitVec.setWidth_eq]
  exact (commandByte_eq_issue c (s := { s with schedule := rest }) hb).symm

/-- Settles O12: one lemma per kind of access; a value of `CW` bits is not cut, and an index above 6 names no parameter
register. -/
theorem registerAccess : Obligations.RegisterAccess := by
  unfold Obligations.RegisterAccess
  refine ⟨?reads, ?busy, ?params, ?command, ?above⟩
  case reads =>
    intro s index rest h
    rw [step_read h, readReg_table]
  case busy => exact fun s index v rest h hb => step_write_busy h hb
  case params =>
    intro s v rest hb hv
    have hset : ∀ index, index ≠ 6 → s.schedule = .host (.write index v) :: rest →
        step s = .next { s with schedule := rest, params := s.params.set index v } := fun index hi h => by
      rw [step_write_param h hb hi, Nat.mod_eq_of_lt hv]
    exact ⟨hset 0 (by decide), hset 1 (by decide), hset 2 (by decide), hset 3 (by decide), hset 4 (by decide),
      hset 5 (by decide)⟩
  case command => exact fun s c rest hb h => step_write_command h hb
  case above =>
    intro s index v rest hb hi h
    rw [step_write_param h hb (by omega), Params.set_above (by omega)]

/-! ## `ERRCODE` -/

/-- A turn of the engine leaves `ERRCODE` as it was. -/
theorem engineTurn_errCode {s t : State} (h : engineTurn s = .next t) : t.errCode = s.errCode := by
  rcases engineTurn_next_cases h with ⟨-, rfl⟩ | ⟨-, rfl⟩
  · obtain ⟨-, -, he, -⟩ := advance_frame (storeDst (offset s) (outWord pred32 s) s)
    exact he
  · rfl

/-- A register write changes `ERRCODE` only when it issues a command. -/
theorem writeReg_errCode {s t : State} {index value : Nat} (h : writeReg index value s = .next t)
    (hw : index = 6 → s.state = .busy) : t.errCode = s.errCode := by
  rcases writeReg_next_cases h with ⟨-, rfl⟩ | ⟨hb, hi, -⟩ | ⟨-, -, rfl⟩
  · rfl
  · exact absurd (hw hi) hb
  · rfl

/-- Of the host's actions only a reset and an issued command change `ERRCODE`. -/
theorem hostAct_errCode {a : HostAction} {s t : State} (h : hostAct a s = .next t) (hr : a ≠ .reset)
    (hw : ∀ v, a = .write 6 v → s.state = .busy) : t.errCode = s.errCode := by
  cases a with
  | write index value => exact writeReg_errCode h fun hi => hw value (by rw [hi])
  | read index => cases h; rfl
  | wait =>
    cases h
    obtain ⟨-, -, -, he, -⟩ := waitPoll_frame s
    exact he
  | writeWord b i v =>
    obtain ⟨-, -, rfl⟩ := bufferMove_next h
    obtain ⟨-, -, -, he, -⟩ := storeWord_frame b i v s
    exact he
  | readWord b i =>
    obtain ⟨-, -, rfl⟩ := bufferMove_next h
    rfl
  | reset => exact absurd rfl hr

/-- A step that neither resets nor issues a command leaves `ERRCODE` as it was. -/
theorem step_errCode_held {s t : State} (h : step s = .next t) (hr : s.schedule.head? ≠ some (.host .reset))
    (hw : ∀ v, s.schedule.head? = some (.host (.write 6 v)) → s.state = .busy) : t.errCode = s.errCode := by
  rcases step_next_cases h with ⟨-, he⟩ | ⟨a, ha, he⟩
  · exact (engineTurn_errCode he).trans (popTurn_errCode s)
  · have held : t.errCode = s.popTurn.errCode :=
      hostAct_errCode he (fun hc => hr (by rw [ha, hc])) fun v hv => hw v (by rw [ha, hv])
    exact held.trans (popTurn_errCode s)

/-- A reset turn is the reset event. -/
theorem step_reset_next {s t : State} (h : step s = .next t) (hr : s.schedule.head? = some (.host .reset)) :
    t = applyReset s.popTurn := by
  rcases step_next_cases h with ⟨he, -⟩ | ⟨a, ha, he⟩
  · exact absurd hr (engineMoves_head he _)
  · rw [hr] at ha
    cases ha
    cases he
    rfl

/-- Every step keeps the invariant. -/
theorem step_inv {s t : State} (hi : s.Inv) (h : step s = .next t) : t.Inv := by
  rcases step_next_cases h with ⟨-, he⟩ | ⟨a, -, he⟩
  · exact engineTurn_inv (popTurn_inv hi) he
  · exact hostAct_inv (popTurn_inv hi) he

/-- In a state of the invariant `ERRCODE` is 0 exactly outside ERROR. -/
theorem errCode_eq_none_iff {s : State} (hi : s.Inv) : s.errCode = none ↔ s.state ≠ .error := by
  obtain ⟨-, -, -, -, -, -, he, -⟩ := hi
  rw [← Option.not_isSome_iff_eq_none, he]

/-- Settles O17: the issue and the reset write `ERRCODE`, every other turn holds it, and the invariant, which every step
keeps, ties it to `STATE`. -/
theorem errCodeWrites : Obligations.ErrCodeWrites := by
  unfold Obligations.ErrCodeWrites
  intro s t h
  refine ⟨?issue, ?reset, step_errCode_held h, fun hi => errCode_eq_none_iff (step_inv hi h)⟩
  case issue =>
    intro c hw hb
    rw [step_command_next h hw hb, BitVec.ofNat_toNat, BitVec.setWidth_eq]
    exact issue_errCode hb
  case reset =>
    intro hr
    rw [step_reset_next h hr, applyReset_errCode]

end Sys2Proof.Machine

/-! # The command byte and the STATUS byte (spec/30_encoding.md) -/

namespace Sys2Proof.Machine

/-! ## The classes of the 256 byte values -/

/-- The high nibble of a byte is 0 exactly for the values below 16. -/
theorem cmdRsv_eq_zero_iff (c : Byte) : cmdRsv c = 0#4 ↔ c.toNat < 16 := by
  have htoNat : (cmdRsv c).toNat = c.toNat / 16 % 16 := by
    simp [cmdRsv, BitVec.extractLsb'_toNat, Nat.shiftRight_eq_div_pow]
  rw [← BitVec.toNat_inj, htoNat, BitVec.toNat_ofNat]
  omega

/-- Among the values below 16 the selector is 0 exactly for 0 and 1. -/
theorem cmdPred_eq_zero_iff {c : Byte} (hr : c.toNat < 16) : cmdPred c = 0#3 ↔ c.toNat < 2 := by
  have htoNat : (cmdPred c).toNat = c.toNat / 2 % 8 := by
    simp [cmdPred, BitVec.extractLsb'_toNat, Nat.shiftRight_eq_div_pow]
  rw [← BitVec.toNat_inj, htoNat, BitVec.toNat_ofNat]
  omega

/-- The first condition of the start check looks at the byte alone (rule R136). -/
theorem startCheck_eCmd {c : Byte} (hr : cmdRsv c ≠ 0#4) (n : Nat) (p : Params) : startCheck c n p = some .eCmd :=
  if_pos hr

/-- The second condition of the start check looks at the byte alone (rule R136). -/
theorem startCheck_ePred {c : Byte} (hr : cmdRsv c = 0#4) (hp : cmdPred c ≠ 0#3) (n : Nat) (p : Params) :
    startCheck c n p = some .ePred :=
  (if_neg (not_not_intro hr)).trans (if_pos hp)

/-- On an empty raster the parameters pass, so the start check is the class of the byte (rule R57). -/
theorem startCheck_emptyRaster (c : Byte) :
    startCheck c 0 ⟨0, 0, 0, 0, 0, 0⟩ =
      if 16 ≤ c.toNat then some .eCmd else if 2 ≤ c.toNat then some .ePred else none := by
  split
  case isTrue h16 =>
    exact startCheck_eCmd (by rw [ne_eq, cmdRsv_eq_zero_iff]; omega) 0 _
  case isFalse h16 =>
    have hr : c.toNat < 16 := by omega
    have hr0 : cmdRsv c = 0#4 := (cmdRsv_eq_zero_iff c).mpr hr
    split
    case isTrue h2 => exact startCheck_ePred hr0 (by rw [ne_eq, cmdPred_eq_zero_iff hr]; omega) 0 _
    case isFalse h2 =>
      exact startCheck_eq_none.mpr ⟨hr0, (cmdPred_eq_zero_iff hr).mpr (by omega), by decide⟩

/-- A test that holds exactly between two bounds picks out of `0 .. n-1` what lies between them. -/
theorem filter_range_eq_range' {n lo hi : Nat} {f : Nat → Bool} (hn : hi ≤ n)
    (hf : ∀ b, b < n → (f b = true ↔ lo ≤ b ∧ b < hi)) : (List.range n).filter f = List.range' lo (hi - lo) := by
  calc (List.range n).filter f
      = (List.range n).filter (fun b => decide (lo ≤ b) && decide (b < hi)) :=
        List.filter_congr fun b hb => by
          rw [Bool.eq_iff_iff, hf b (List.mem_range.mp hb), Bool.and_eq_true, decide_eq_true_iff, decide_eq_true_iff]
    _ = ((List.Ico 0 n).filter (fun b => b < hi)).filter (fun b => lo ≤ b) := by
        rw [List.filter_filter, List.Ico.zero_bot]
    _ = List.range' lo (hi - lo) := by
        rw [List.Ico.filter_lt, List.Ico.filter_le, Nat.min_eq_right hn, Nat.zero_max]
        rfl

/-- The byte values below 256 that the start check answers with `r` on an empty raster are those between two bounds, when
the class of `r` has these bounds. -/
theorem filter_startCheck_emptyRaster {r : Option FaultCode} {lo hi : Nat} (hn : hi ≤ 256)
    (hr : ∀ b, b < 256 →
      ((if 16 ≤ b then some .eCmd else if 2 ≤ b then some .ePred else none) = r ↔ lo ≤ b ∧ b < hi)) :
    ((List.range 256).filter fun b => startCheck (BitVec.ofNat 8 b) 0 ⟨0, 0, 0, 0, 0, 0⟩ == r)
      = List.range' lo (hi - lo) := by
  refine filter_range_eq_range' hn fun b hb => ?_
  have htoNat : (BitVec.ofNat 8 b).toNat = b := Nat.mod_eq_of_lt hb
  rw [beq_iff_eq, startCheck_emptyRaster, htoNat, hr b hb]

/-- A byte that fails the start check, given to an engine that is not BUSY, sets STATUS and nothing else (rule R137). -/
theorem commandByte_fault {c : Byte} {s : State} {code : FaultCode} (hb : s.state ≠ .busy)
    (hc : startCheck c s.cfg.nwords s.params = some code) :
    commandByte c s = .next { s with state := .error, errCode := some code } := by
  rw [commandByte_eq_issue c hb, issue_fault hb hc]
  rfl

/-- Settles O4: on an empty raster the start check is the class of the byte, whose bounds are 2 and 16; the conditions on
the byte come first in the check, whatever the parameters. -/
theorem byteClasses : Obligations.ByteClasses := by
  unfold Obligations.ByteClasses
  refine ⟨filter_startCheck_emptyRaster (lo := 0) (hi := 2) (by decide) fun b hb => ?command,
    filter_startCheck_emptyRaster (hi := 16) (by decide) fun b hb => ?ePred,
    filter_startCheck_emptyRaster (hi := 256) (by decide) fun b hb => ?eCmd,
    fun s c hb => ⟨fun hr => ?illegal, fun hr hp => ?reserved⟩⟩
  case command | ePred | eCmd => split_ifs <;> simp <;> omega
  case illegal => exact commandByte_fault hb (startCheck_eCmd hr _ _)
  case reserved => exact commandByte_fault hb (startCheck_ePred hr hp _ _)

/-! ## The STATUS byte -/

/-- Each field of three joined ones stands at its own bits (rule R56). -/
theorem extract_status_fields (e : BitVec 4) (r b : BitVec 2) :
    (e ++ r ++ b).extractLsb' 0 2 = b ∧ (e ++ r ++ b).extractLsb' 2 2 = r ∧ (e ++ r ++ b).extractLsb' 4 4 = e := by
  revert e r b
  decide

/-- Two cases of rule R15 under the invariant: outside ERROR there is no code, in ERROR there is one. -/
theorem status_cases {s : State} (hi : s.Inv) :
    (s.state ≠ .error ∧ s.errCode = none) ∨ (s.state = .error ∧ ∃ code, s.errCode = some code) := by
  by_cases hs : s.state = .error
  · exact Or.inr ⟨hs, Option.ne_none_iff_exists'.mp fun he => (errCode_eq_none_iff hi).mp he hs⟩
  · exact Or.inl ⟨hs, (errCode_eq_none_iff hi).mpr hs⟩

/-- The eight bytes a host can read (rule R56): one for each of IDLE, BUSY and DONE, and one for each code in ERROR. -/
theorem statusByte_mem {s : State} (hi : s.Inv) :
    statusByte s ∈ [0x00#8, 0x01#8, 0x02#8, 0x13#8, 0x23#8, 0x33#8, 0x43#8, 0x53#8] := by
  unfold statusByte
  rcases status_cases hi with ⟨hs, he⟩ | ⟨hs, code, he⟩
  · rw [he]
    cases hst : s.state with
    | idle => decide
    | busy => decide
    | done => decide
    | error => exact absurd hst hs
  · rw [hs, he]
    cases code <;> decide

/-- The machine after reset with its parameter registers written: where the commands below are issued. -/
def resetWithParams (p : Params) : State := { State.reset with params := p }

theorem resetWithParams_inv {p : Params} (hp : p.fits 16) : (resetWithParams p).Inv := by
  obtain ⟨hcfg, -, hx, hy, hsrc, hdst, he, -⟩ : State.reset.Inv := by decide
  exact ⟨hcfg, hp, hx, hy, hsrc, hdst, he, fun hb => nomatch hb⟩

/-- What STATUS holds after a command issued with parameters of the reference width occurs in a state of the
invariant. -/
theorem exists_inv_statusByte (c : Byte) {p : Params} {v : Byte} (hp : p.fits 16)
    (hv : statusByte (issue c (resetWithParams p)) = v) : ∃ s : State, s.Inv ∧ statusByte s = v :=
  ⟨issue c (resetWithParams p), issue_inv (resetWithParams_inv hp), hv⟩

/-- Settles O13: the fields by their places in the byte; the eight values by the two cases of `ERRCODE`; IDLE occurs after
reset, each other value after a command that the start check accepts or rejects with that code. -/
theorem statusFormat : Obligations.StatusFormat := by
  unfold Obligations.StatusFormat
  refine ⟨fun s => ?fields, fun s hi => statusByte_mem hi, ?occur⟩
  case fields =>
    obtain ⟨hstate, hreserved, herr⟩ := extract_status_fields (errBits s.errCode) 0#2 s.state.bits
    refine ⟨hstate.trans ?_, hreserved, herr.trans ?_⟩
    · cases s.state <;> rfl
    · rcases s.errCode with _ | code
      · rfl
      · cases code <;> rfl
  case occur =>
    simp only [List.forall_mem_cons]
    refine ⟨?idle, ?busy, ?done, ?eCmd, ?ePred, ?eSize, ?eRegionX, ?eRegionY, fun v hv => absurd hv List.not_mem_nil⟩
    case idle => exact ⟨State.reset, resetWithParams_inv (p := ⟨0, 0, 0, 0, 0, 0⟩) (by decide), rfl⟩
    case busy => exact exists_inv_statusByte 0x00#8 (p := ⟨1, 1, 0, 0, 1, 1⟩) (by decide) (by decide)
    case done => exact exists_inv_statusByte 0x00#8 (p := ⟨1, 1, 0, 0, 0, 0⟩) (by decide) (by decide)
    case eCmd => exact exists_inv_statusByte 0x10#8 (p := ⟨1, 1, 0, 0, 1, 1⟩) (by decide) (by decide)
    case ePred => exact exists_inv_statusByte 0x02#8 (p := ⟨1, 1, 0, 0, 1, 1⟩) (by decide) (by decide)
    case eSize => exact exists_inv_statusByte 0x00#8 (p := ⟨17, 1, 0, 0, 1, 1⟩) (by decide) (by decide)
    case eRegionX => exact exists_inv_statusByte 0x00#8 (p := ⟨1, 1, 1, 0, 1, 1⟩) (by decide) (by decide)
    case eRegionY => exact exists_inv_statusByte 0x00#8 (p := ⟨1, 1, 0, 1, 1, 1⟩) (by decide) (by decide)

end Sys2Proof.Machine

/-! # The predictor: lanes, `MED8`, neighbours and predictions (spec/40_predictor.md) -/

namespace Sys2Proof.Machine

/-! ## Lanes of a packed word -/

/-- The low 8 bits of each value make the lane it is packed into (rule R65). -/
theorem lane_pack4 (b : Fin 4 → Nat) (k : Fin 4) : lane (pack4 (b 3) (b 2) (b 1) (b 0)) k = BitVec.ofNat 8 (b k) := by
  have hpack : pack4 (b 3) (b 2) (b 1) (b 0) = packLanes fun k => BitVec.ofNat 8 (b k) := by
    simp only [packLanes, pack4, BitVec.ofNat_toNat, BitVec.setWidth_eq]
  rw [hpack, lane_packLanes]

theorem toNat_lane_pack4 (b : Fin 4 → Nat) (k : Fin 4) :
    (lane (pack4 (b 3) (b 2) (b 1) (b 0)) k).toNat = b k % 256 := by
  rw [lane_pack4, BitVec.toNat_ofNat]

/-- The shift-and-mask form of a lane (rule R65). -/
theorem lane_eq_shift_and_mask (w : Word) (k : Fin 4) : lane w k = ((w >>> (8 * k.val)) &&& 0xFF#32).setWidth 8 := by
  apply BitVec.eq_of_toNat_eq
  have hmask : w.toNat >>> (8 * k.val) &&& 0xFF = w.toNat >>> (8 * k.val) % 2 ^ 8 :=
    Nat.and_two_pow_sub_one_eq_mod _ 8
  calc (lane w k).toNat
      = w.toNat >>> (8 * k.val) % 2 ^ 8 := BitVec.extractLsb'_toNat ..
    _ = (w.toNat >>> (8 * k.val) &&& 0xFF) % 2 ^ 8 := by rw [hmask, Nat.mod_mod]
    _ = (((w >>> (8 * k.val)) &&& 0xFF#32).setWidth 8).toNat := by
        rw [BitVec.toNat_setWidth, BitVec.toNat_and, BitVec.toNat_ushiftRight]
        rfl

/-- Settles O21: a word is determined by its lanes, the lanes of a packed word are the values' low 8 bits, and
extracting 8 bits is shifting and masking. -/
theorem lanesPackAndUnpack : Obligations.LanesPackAndUnpack := by
  unfold Obligations.LanesPackAndUnpack
  refine ⟨packLanes_lane, fun b3 b2 b1 b0 => ?_, lane_eq_shift_and_mask⟩
  have hlane := toNat_lane_pack4 ![b0, b1, b2, b3]
  exact ⟨hlane 3, hlane 2, hlane 1, hlane 0⟩

/-! ## The median predictor of a lane -/

/-- Between ordered bounds the two tests of `clamp` are a minimum and a maximum. -/
theorem clamp_eq_max_min {lo hi : Int} (h : lo ≤ hi) (v : Int) : clamp v lo hi = max lo (min v hi) := by
  unfold clamp
  split
  case isTrue hlo => omega
  case isFalse hlo => split <;> omega

theorem min3_le_max3 (a b c : Byte) : min3 a b c ≤ max3 a b c :=
  (min_le_left _ _).trans (le_max_left _ _)

/-- `MED8` is the sum `a + b − c` cut to the range of the three samples (rule R69). -/
theorem med8_toNat_eq_max_min (a b c : Byte) :
    ((med8 a b c).toNat : Int) = max (min3 a b c : Int) (min ((a.toNat : Int) + b.toNat - c.toNat) (max3 a b c)) := by
  rw [med8_toNat, clamp_eq_max_min (Int.ofNat_le.mpr (min3_le_max3 a b c))]

theorem min3_le_med8 (a b c : Byte) : min3 a b c ≤ (med8 a b c).toNat := by
  rw [← Int.ofNat_le, med8_toNat_eq_max_min]
  exact le_max_left _ _

theorem med8_le_max3 (a b c : Byte) : (med8 a b c).toNat ≤ max3 a b c := by
  rw [← Int.ofNat_le, med8_toNat_eq_max_min]
  exact max_le (Int.ofNat_le.mpr (min3_le_max3 a b c)) (min_le_right _ _)

/-- Settles O22: `MED8` is clamped to the least and the greatest of its operands. -/
theorem med8Range : Obligations.Med8Range := fun a b c => ⟨min3_le_med8 a b c, med8_le_max3 a b c⟩

/-- With the up-left sample on top the sum is at most the lower bound, which is the smaller of left and up. -/
theorem med8_of_max_le {a b c : Byte} (h : max a.toNat b.toNat ≤ c.toNat) :
    (med8 a b c).toNat = min a.toNat b.toNat := by
  have hmed := med8_toNat_eq_max_min a b c
  have hlo : min3 a b c = min a.toNat b.toNat := by unfold min3; omega
  omega

/-- With the up-left sample at the bottom the sum is at least the upper bound, which is the larger of left and up. -/
theorem med8_of_le_min {a b c : Byte} (h : c.toNat ≤ min a.toNat b.toNat) :
    (med8 a b c).toNat = max a.toNat b.toNat := by
  have hmed := med8_toNat_eq_max_min a b c
  have hlo : min3 a b c ≤ c.toNat := (min_le_right _ _).trans (min_le_right _ _)
  have hhi : max3 a b c = max a.toNat b.toNat := by unfold max3; omega
  omega

/-- With the up-left sample strictly between left and up the sum lies between them too, and no bound cuts it. -/
theorem med8_of_between {a b c : Byte} (hlo : min a.toNat b.toNat < c.toNat) (hhi : c.toNat < max a.toNat b.toNat) :
    ((med8 a b c).toNat : Int) = (a.toNat : Int) + b.toNat - c.toNat := by
  have hmed := med8_toNat_eq_max_min a b c
  have hmin : min3 a b c = min a.toNat b.toNat := by unfold min3; omega
  have hmax : max3 a b c = max a.toNat b.toNat := by unfold max3; omega
  omega

/-- Settles O23: the three places of `c` relative to `a` and `b`. -/
theorem med8SelectForm : Obligations.Med8SelectForm := by
  unfold Obligations.Med8SelectForm
  refine fun a b c => ⟨med8_of_max_le, med8_of_le_min, fun hmax hmin => ?between⟩
  case between =>
    have hsum := med8_of_between (not_le.mp hmin) (not_le.mp hmax)
    exact ⟨hsum, by omega, by omega⟩

/-! ## Neighbours -/

/-- The cell above lies a whole row before the cell. -/
theorem offset_sub_width {w x y : Nat} (hy : y ≠ 0) : y * w + x - w = (y - 1) * w + x := by
  rw [Nat.sub_add_comm (Nat.le_mul_of_pos_left w (Nat.pos_of_ne_zero hy)), Nat.sub_one_mul]

/-- `NFETCH` with the offsets written from the cell's own (rule R67). -/
theorem nfetch_eq_of_offset (b : Memory) {w x y off : Nat} (hx : x < w) (hoff : off = y * w + x) :
    nfetch b w x off =
      { left := if x = 0 then 0#32 else b.read (off - 1)
        up := if y = 0 then 0#32 else b.read (off - w)
        upLeft := if x = 0 ∨ y = 0 then 0#32 else b.read (off - w - 1) } := by
  subst hoff
  rw [nfetch_eq b hx, Neighbours.mk.injEq]
  refine ⟨ite_congr rfl (fun _ => rfl) fun hx0 => ?leftOffset, ite_congr rfl (fun _ => rfl) fun hy0 => ?upOffset,
    ite_congr rfl (fun _ => rfl) fun hxy => ?upLeftOffset⟩
  case leftOffset => rw [Nat.add_sub_assoc (Nat.pos_of_ne_zero hx0)]
  case upOffset => rw [offset_sub_width hy0]
  case upLeftOffset =>
    obtain ⟨hx0, hy0⟩ := not_or.mp hxy
    rw [offset_sub_width hy0, Nat.add_sub_assoc (Nat.pos_of_ne_zero hx0)]

/-- A cell is in row 0 exactly when its offset is below the width, or below any bound up to its column beyond it. -/
theorem offset_lt_width_add_iff {w x y d : Nat} (hx : x < w) (hd : d ≤ x) : y * w + x < w + d ↔ y = 0 := by
  constructor
  · intro hlt
    by_contra hy
    have hrow : w ≤ y * w := Nat.le_mul_of_pos_left w (Nat.pos_of_ne_zero hy)
    omega
  · rintro rfl
    omega

/-- Settles O28: `NFETCH` with offsets from the cell's own, and row 0 as a bound on the offset, which is one larger
beyond column 0. -/
theorem neighbourPolicy : Obligations.NeighbourPolicy := by
  unfold Obligations.NeighbourPolicy
  intro b w x y off hx hoff
  rw [nfetch_eq_of_offset b hx hoff, hoff]
  refine ⟨rfl, rfl, rfl, offset_lt_width_add_iff hx (Nat.zero_le x), or_congr_right' fun hx0 => ?upLeftTest,
    or_iff_left_of_imp fun hlt => ?leftTest⟩
  case upLeftTest => exact offset_lt_width_add_iff hx (Nat.pos_of_ne_zero hx0)
  case leftTest => omega

/-! ## Predictions -/

/-- With only a left neighbour the prediction is that neighbour (rule R68 in every lane). -/
theorem packLanes_med8_left (v : Word) : (packLanes fun k => med8 (lane v k) (lane 0#32 k) (lane 0#32 k)) = v := by
  simp only [lane_zero, med8_left]
  exact packLanes_lane v

/-- With only an up neighbour the prediction is that neighbour (rule R68 in every lane). -/
theorem packLanes_med8_up (v : Word) : (packLanes fun k => med8 (lane 0#32 k) (lane v k) (lane 0#32 k)) = v := by
  simp only [lane_zero, med8_up]
  exact packLanes_lane v

/-- Settles O29: the neighbours present in each of the four places, and `MED8` of them in every lane. -/
theorem predictionShortcuts : Obligations.PredictionShortcuts := by
  unfold Obligations.PredictionShortcuts
  intro b w h x y off hx hoff
  unfold pred32
  rw [nfetch_eq_of_offset b hx hoff]
  refine ⟨fun hx0 hy0 => ?origin, fun hy0 hx0 => ?row, fun hx0 hy0 => ?column, fun hx0 hy0 => ?inside⟩
  case origin =>
    simp only [hx0, hy0, if_true, true_or]
    exact packLanes_med8_left 0#32
  case row =>
    simp only [hy0, hx0.ne', if_true, if_false, or_true]
    exact packLanes_med8_left _
  case column =>
    simp only [hx0, hy0.ne', if_true, if_false, true_or]
    exact packLanes_med8_up _
  case inside =>
    simp only [hx0.ne', hy0.ne', if_false, or_self]
    rfl

end Sys2Proof.Machine

/-! # The residual: subtraction and addition of lanes and words (spec/41_residual.md) -/

namespace Sys2Proof.Machine

/-! ## One lane -/

/-- An integer cut to 8 bits is its remainder by 256 (the wrap of rules R85 and R86). -/
theorem toNat_ofInt_byte (i : Int) : ((BitVec.ofInt 8 i).toNat : Int) = i % 256 := by
  rw [BitVec.toNat_ofInt]
  exact Int.toNat_of_nonneg (Int.emod_nonneg i (by decide))

/-- Settles O24: the integer difference and sum wrap at 256, as do the operations of 8-bit words. -/
theorem residualOfLane : Obligations.ResidualOfLane := fun s p =>
  ⟨toNat_ofInt_byte _, rsub8_eq s p, toNat_ofInt_byte _, radd8_eq s p⟩

/-- Settles O26: a wrapping subtraction and the addition of the same sample undo each other. -/
theorem residualInverseOfLane : Obligations.ResidualInverseOfLane := ⟨radd8_rsub8, rsub8_radd8⟩

/-! ## One word -/

theorem rsub32_self (w : Word) : rsub32 w w = 0#32 :=
  word_ext fun k => by rw [lane_rsub32, lane_zero, rsub8_eq, BitVec.sub_self]

theorem zero_radd32 (w : Word) : radd32 0#32 w = w :=
  word_ext fun k => by rw [lane_radd32, lane_zero, radd8_eq, BitVec.zero_add]

/-- Settles O25: each lane of the packed operations is the operation of those lanes, the corner cases follow lane by
lane, and the two examples are words where a borrow or a carry leaves every lane. -/
theorem residualWordsByLane : Obligations.ResidualWordsByLane := by
  unfold Obligations.ResidualWordsByLane
  refine ⟨lane_rsub32, lane_radd32, fun w => ⟨rsub32_zero w, rsub32_self w, radd32_zero w, zero_radd32 w⟩,
    ?borrow, ?carry⟩
  case borrow => decide
  case carry => decide

/-- Settles O27: for a fixed prediction each packed operation is a two-sided inverse of the other. -/
theorem residualInverseOfWord : Obligations.ResidualInverseOfWord :=
  ⟨radd32_rsub32, rsub32_radd32,
    fun q => Function.bijective_iff_has_inverse.mpr ⟨(radd32 · q), (radd32_rsub32 · q), (rsub32_radd32 · q)⟩,
    fun q => Function.bijective_iff_has_inverse.mpr ⟨(rsub32 · q), (rsub32_radd32 · q), (radd32_rsub32 · q)⟩⟩

end Sys2Proof.Machine

/-! # Command issue, the scan and whole commands (spec/42_scan.md) -/

namespace Sys2Proof.Machine

/-! ## Whole commands -/

/-- What a finished command `i` has made of the state `s` it was issued in (rules R101, R102); of the scan position nothing
is said. -/
structure Completed (i : Instr) (s u : State) : Prop where
  state : u.state = .done
  errCode : u.errCode = none
  actOp : u.actOp = opOf i
  actPred : u.actPred = 0#3
  dst : u.dst = opCells (opOf i) s.params s.src (regionCells s.params) s.dst
  src : u.src = s.src
  params : u.params = s.params
  cfg : u.cfg = s.cfg
  schedule : u.schedule = s.schedule
  received : u.received = s.received

/-- A command issued by itself is finished after one step for each cell of its region (rule R105). -/
theorem command_completes {s : State} {i : Instr} (hs : s.ready) (hi : i.wf = true) :
    ∃ t u, exec i s = .next t ∧ run (s.params.regionW * s.params.regionH) t = .next u ∧ Completed i s u := by
  obtain ⟨t, u, hexec, hrun, -, hcfg, hparams, herr, hsrc, hsched, hrec, hop, hpred, hdst, -, hdone⟩ :=
    command_run hs hi le_rfl
  obtain ⟨-, -, hq, -⟩ := hs
  rw [take_all_regionCells] at hdst
  exact ⟨t, u, hexec, hrun, hdone rfl, herr, hop, hpred, hdst, hsrc, hparams, hcfg, hsched.trans hq.symm, hrec⟩

/-- Where a command on a region with cells begins (rule R98). -/
theorem eq_start_of_exec {s t : State} {i : Instr} (hs : s.ready) (hi : i.wf = true) (hexec : exec i s = .next t)
    (hw : s.params.regionW ≠ 0) (hh : s.params.regionH ≠ 0) :
    t = { s with
      errCode := none
      actOp := opOf i
      actPred := 0#3
      curX := s.params.originX
      curY := s.params.originY
      state := .busy } := by
  obtain ⟨-, hb, -, ha⟩ := hs
  exact Host.Outcome.next.inj (hexec.symm.trans (exec_starts hi hb ha hw hh))

/-- A finished command has left alone every word that is at no offset of its region. -/
theorem Completed.read_other {i : Instr} {s u : State} {j : Nat} (hu : Completed i s u) (hs : s.ready)
    (hj : ¬ s.params.regionOffset j) : u.dst.read j = s.dst.read j := by
  obtain ⟨⟨-, -, -, -, -, hwf, -, -⟩, -, -, ha⟩ := hs
  rw [hu.dst]
  cases i with
  | enc q => exact encLoop_read_other ha hwf hj
  | dec q => exact decLoop_read_other ha hwf hj

/-- Settles O45: the completed command has run the encode loop, whose words at the region's cells are known. -/
theorem encodeCommandRuns : Obligations.EncodeCommandRuns := by
  unfold Obligations.EncodeCommandRuns
  intro s hs
  obtain ⟨t, u, hexec, hrun, hu⟩ := command_completes (i := .enc 0#3) hs rfl
  have hstart := eq_start_of_exec hs rfl hexec
  have hdst : u.dst = encLoop s.params s.src s.dst := hu.dst
  refine ⟨t, u, hexec, hstart, hrun, hu.state, hu.errCode, hu.actOp, hu.actPred, hdst, fun x y hc => ?cell,
    fun i hi => hu.read_other hs fun ⟨x, y, hc, he⟩ => hi x y hc he, hu.src, hu.params, hu.cfg, hu.schedule,
    hu.received⟩
  case cell =>
    obtain ⟨⟨-, -, -, -, -, hwf, -, -⟩, -, -, ha⟩ := hs
    rw [hdst]
    exact encLoop_read_cell ha hwf hc

/-- Settles O46: the completed command has run the decode loop, whose words at the region's cells are known from its own
final contents. -/
theorem decodeCommandRuns : Obligations.DecodeCommandRuns := by
  unfold Obligations.DecodeCommandRuns
  intro s hs
  obtain ⟨t, u, hexec, hrun, hu⟩ := command_completes (i := .dec 0#3) hs rfl
  have hstart := eq_start_of_exec hs rfl hexec
  have hdst : u.dst = decLoop s.params s.src s.dst := hu.dst
  refine ⟨t, u, hexec, hstart, hrun, hu.state, hu.errCode, hu.actOp, hu.actPred, hdst, fun x y hc => ?cell,
    fun i hi => hu.read_other hs fun ⟨x, y, hc, he⟩ => hi x y hc he, hu.src, hu.params, hu.cfg, hu.schedule,
    hu.received⟩
  case cell =>
    obtain ⟨⟨-, -, -, -, -, hwf, -, -⟩, -, -, ha⟩ := hs
    rw [hdst]
    exact decLoop_read_cell ha hwf hc

theorem regionCells_getElem? {p : Params} {k : Nat} (hk : k < p.regionW * p.regionH) :
    (regionCells p)[k]? = some (nthCell p k) := by
  rw [regionCells_eq_map, List.getElem?_map, List.getElem?_range hk]
  rfl

/-- Settles O47: the state after `k` steps, for every `k` up to the number of cells, from the one state the issue
answers. -/
theorem runLength : Obligations.RunLength := by
  unfold Obligations.RunLength
  intro s i hs hi
  obtain ⟨t, u, hexec, hrun, hu⟩ := command_completes hs hi
  refine ⟨t, hexec, fun k hk => ?before, u, hrun, hu.state⟩
  case before =>
    obtain ⟨t', v, hexec', hrun', -, -, -, -, -, -, -, -, -, -, hbusy, -⟩ := command_run hs hi hk.le
    obtain rfl : t' = t := Host.Outcome.next.inj (hexec'.symm.trans hexec)
    obtain ⟨hv, hx, hy⟩ := hbusy hk
    exact ⟨v, hrun', hv, by rw [regionCells_getElem? hk, hx, hy]⟩

/-! ## Command issue -/

/-- A command that passes the check on an empty region is DONE at once (rules R96, R107). -/
theorem issue_pass_empty {c : Byte} {s : State} (hb : s.state ≠ .busy)
    (hc : startCheck c s.cfg.nwords s.params = none) (he : s.params.regionW = 0 ∨ s.params.regionH = 0) :
    issue c s = { s with errCode := none, actOp := Op.ofBit (cmdOp c), actPred := 0#3, state := .done } := by
  obtain ⟨-, hpred, -⟩ := startCheck_eq_none.mp hc
  rw [issue_pass hb hc, startScan, if_pos (by exact regionEmpty_iff.mpr he), latchCommand, hpred]

/-- A command that passes the check on a region with cells is BUSY at the region's origin (rules R96, R98). -/
theorem issue_pass_cells {c : Byte} {s : State} (hb : s.state ≠ .busy)
    (hc : startCheck c s.cfg.nwords s.params = none) (he : ¬ (s.params.regionW = 0 ∨ s.params.regionH = 0)) :
    issue c s = { s with
      errCode := none
      actOp := Op.ofBit (cmdOp c)
      actPred := 0#3
      curX := s.params.originX
      curY := s.params.originY
      state := .busy } := by
  obtain ⟨-, hpred, -⟩ := startCheck_eq_none.mp hc
  rw [issue_pass hb hc, startScan, if_neg (by exact mt regionEmpty_iff.mp he), latchCommand, hpred]

/-- A CMD write of a byte to an engine that is not BUSY issues that byte. -/
theorem step_issue {s : State} {c : Byte} {rest : List Turn} (h : s.schedule = .host (.write 6 c.toNat) :: rest)
    (hb : s.state ≠ .busy) : step s = .next (issue c { s with schedule := rest }) :=
  (step_write_command h hb).trans (commandByte_eq_issue c hb)

/-- Settles O6: BUSY ignores the write; otherwise the issue's three outcomes, with the operation as bit 0 of the byte. -/
theorem commandIssue : Obligations.CommandIssue := by
  unfold Obligations.CommandIssue
  intro s c rest h
  refine ⟨step_write_busy h, fun hb => ?_⟩
  rw [step_issue h hb, ← ofBit_cmdOp]
  refine ⟨fun code hc => ?fault, fun hc => ⟨fun he => ?empty, fun he => ?cells⟩⟩
  case fault => exact congrArg _ (issue_fault (s := { s with schedule := rest }) hb hc)
  case empty => exact congrArg _ (issue_pass_empty (s := { s with schedule := rest }) hb hc he)
  case cells => exact congrArg _ (issue_pass_cells (s := { s with schedule := rest }) hb hc he)

/-- Either command, with its predictor, on an accepted empty region (rule R107). -/
theorem exec_empty {s : State} {i : Instr} (hi : i.wf = true) (hb : s.state ≠ .busy)
    (ha : s.params.accepted s.cfg.nwords) (he : s.params.regionW = 0 ∨ s.params.regionH = 0) :
    exec i s = .next { s with errCode := none, actOp := opOf i, actPred := 0#3, state := .done } := by
  rw [exec_eq_issue, issue_pass_empty hb (startCheck_encode hi ha) he, ofBit_cmdOp_encode]

/-- Settles O11: an empty region ends at the issue; a pass bounds origin and size of the region by the raster's sides. -/
theorem emptyRegionCommand : Obligations.EmptyRegionCommand := by
  unfold Obligations.EmptyRegionCommand
  refine ⟨fun s hb ha he => ⟨exec_empty (i := .enc 0#3) rfl hb ha he, exec_empty (i := .dec 0#3) rfl hb ha he⟩,
    fun c n p hc => ?bounds⟩
  case bounds =>
    obtain ⟨-, -, -, hx, hy⟩ := startCheck_eq_none.mp hc
    unfold Params.regionRight at hx
    unfold Params.regionBottom at hy
    omega

/-! ## ADVANCE and the linear offset -/

theorem advance_column {s : State} (hx : s.curX + 1 < s.params.regionRight) :
    advance s = { s with curX := s.curX + 1 } := if_pos hx

theorem advance_row {s : State} (hx : ¬ s.curX + 1 < s.params.regionRight) (hy : s.curY + 1 < s.params.regionBottom) :
    advance s = { s with curX := s.params.originX, curY := s.curY + 1 } := (if_neg hx).trans (if_pos hy)

theorem advance_last {s : State} (hx : ¬ s.curX + 1 < s.params.regionRight)
    (hy : ¬ s.curY + 1 < s.params.regionBottom) : advance s = finish s := (if_neg hx).trans (if_neg hy)

/-- Settles O36: the two moves, and the end of the run, which sets STATE and draws a scan position. -/
theorem advanceMoves : Obligations.AdvanceMoves := by
  unfold Obligations.AdvanceMoves
  refine fun s => ⟨advance_column, advance_row, fun hx hy => ?last⟩
  case last =>
    rw [advance_last hx hy]
    exact ⟨rfl, rfl, rfl, rfl, rfl, rfl, rfl, rfl, rfl, rfl⟩

/-- A move to the right adds 1 to the offset (rule R99). -/
theorem offset_advance_column {s : State} (hx : s.curX + 1 < s.params.regionRight) :
    offset (advance s) = offset s + 1 := by
  rw [advance_column hx]
  rfl

/-- A move from the last column to the next row adds what the row has outside the region, and 1 (rule R99). -/
theorem offset_advance_row {s : State} (hfit : s.params.regionRight ≤ s.params.width)
    (hx : s.curX + 1 = s.params.regionRight) (hy : s.curY + 1 < s.params.regionBottom) :
    offset (advance s) = offset s + (s.params.width - s.params.regionW + 1) := by
  rw [advance_row (by omega) hy]
  simp only [offset, Params.cellOffset, Nat.add_one_mul]
  unfold Params.regionRight at hfit hx
  omega

/-- A command that leaves the engine BUSY was issued on a region with cells and stands at its origin (rule R98). -/
theorem position_of_exec_busy {i : Instr} {s t : State} (hb : s.state ≠ .busy) (h : exec i s = .next t)
    (ht : t.state = .busy) : t.params = s.params ∧ t.curX = s.params.originX ∧ t.curY = s.params.originY := by
  rw [exec_eq_issue] at h
  obtain rfl := Host.Outcome.next.inj h
  rcases issue_cases (encode i) s with ⟨hbusy, -⟩ | ⟨-, code, -, he⟩ | ⟨-, -, -, he⟩ | ⟨-, -, -, he⟩
  · exact absurd hbusy hb
  · rw [he] at ht; cases ht
  · rw [he] at ht; cases ht
  · rw [he]; exact ⟨rfl, rfl, rfl⟩

/-- Settles O37: the scan position of a BUSY engine is a cell of the raster; the two moves; the origin at issue. -/
theorem offsetForms : Obligations.OffsetForms := by
  unfold Obligations.OffsetForms
  refine ⟨fun s => rfl, fun s hinv hb => ?busy, fun i s t hb h ht => ?issue⟩
  case busy =>
    obtain ⟨-, -, -, -, -, -, -, hscan⟩ := hinv
    obtain ⟨ha, -, hc⟩ := hscan hb
    have ⟨hsize, hright, _⟩ := ha
    exact ⟨cellOffset_lt (inRaster_of_inRegion ha hc), hsize, offset_advance_column, offset_advance_row hright⟩
  case issue =>
    obtain ⟨hp, hx, hy⟩ := position_of_exec_busy hb h ht
    rw [offset, hp, hx, hy]
    rfl

/-! ## Partial regions -/

/-- The raster of `p` with all of it as the region. -/
def Params.wholeRaster (p : Params) : Params :=
  { p with originX := 0, originY := 0, regionW := p.width, regionH := p.height }

theorem Params.wholeRaster_full (p : Params) : p.wholeRaster.full := ⟨rfl, rfl, rfl, rfl⟩

theorem Params.wholeRaster_accepted {p : Params} {n : Nat} (ha : p.accepted n) : p.wholeRaster.accepted n :=
  ⟨ha.1, (Nat.zero_add _).le, (Nat.zero_add _).le⟩

/-- Settles O59: both encodes leave the cell's word of rule R101, which is of the raster and not of the region. -/
theorem partialRegionEncode : Obligations.PartialRegionEncode := by
  unfold Obligations.PartialRegionEncode
  intro n p src d d' ha hd hd' x y hc
  have hwhole : p.wholeRaster.inRegion x y := (inRegion_full p.wholeRaster_full).mpr (inRaster_of_inRegion (p := p) ha hc)
  calc (encLoop p src d).read (p.cellOffset x y)
      = encWord pred32 p src x y := encLoop_read_cell ha hd hc
    _ = encWord pred32 p.wholeRaster src x y := rfl
    _ = (encLoop p.wholeRaster src d').read (p.cellOffset x y) :=
        (encLoop_read_cell (Params.wholeRaster_accepted ha) hd' hwhole).symm

end Sys2Proof.Machine

/-! # The laws of whole commands: determinism, round trips, tiles, lanes and edges (spec/43_laws.md) -/

namespace Sys2Proof.Machine

/-! ## Determinism -/

/-- Settles O48: what a command leaves in DST is a loop over the registers and the two buffers at issue. -/
theorem commandDeterminism : Obligations.CommandDeterminism := by
  unfold Obligations.CommandDeterminism
  intro s s' i hs hs' hi _ hparams hsrc hdst
  obtain ⟨t, u, hexec, hrun, hu⟩ := command_completes hs hi
  obtain ⟨t', u', hexec', hrun', hu'⟩ := command_completes hs' hi
  rw [hparams] at hrun'
  refine ⟨t, t', u, u', hexec, hexec', hrun, hrun', hu.state, hu'.state, ?sameDst⟩
  case sameDst => rw [hu'.dst, hu.dst, hparams, hsrc, hdst]

/-! ## Residuals and pixels of a region -/

/-- Induction along the scan (rule R103): what holds of a cell once it holds of the cell's neighbours in the region holds of
every cell of the region. -/
theorem inRegion_induction {p : Params} {n : Nat} {motive : Nat → Nat → Prop} (ha : p.accepted n)
    (hcell : ∀ x y, p.inRegion x y → (∀ x' y', isNeighbour x y x' y' → p.inRegion x' y' → motive x' y') → motive x y) :
    ∀ x y, p.inRegion x y → motive x y := by
  intro x y hc
  induction hoff : p.cellOffset x y using Nat.strong_induction_on generalizing x y with
  | h off ih =>
    subst hoff
    exact hcell x y hc fun x' y' hn hc' =>
      ih _ (cellOffset_neighbour_lt (inRaster_of_inRegion ha hc).1 hn) x' y' hc' rfl

/-- On a region, residuals and the pixels at its border determine the pixels (rules R123, R130). -/
theorem pixels_eq_of_residuals {p : Params} {n : Nat} {pix pix' r : Memory} (ha : p.accepted n)
    (hres : holdsResiduals p pix r) (hres' : holdsResiduals p pix' r) (hborder : holdsBorder p pix pix') :
    ∀ x y, p.inRegion x y → pix'.read (p.cellOffset x y) = pix.read (p.cellOffset x y) := by
  refine inRegion_induction ha fun x y hc ih => ?_
  have hpred : pred32 pix' p.width p.height x y (p.cellOffset x y) =
      pred32 pix p.width p.height x y (p.cellOffset x y) := by
    refine pred32_congr_neighbours (inRaster_of_inRegion ha hc).1 fun x' y' hn => ?_
    by_cases hc' : p.inRegion x' y'
    · exact ih x' y' hn hc'
    · exact hborder x y x' y' hc hn hc'
  rw [← radd32_rsub32 (pix'.read (p.cellOffset x y)), ← hres' x y hc, hpred, hres x y hc, radd32_rsub32]

/-- An encode leaves the residuals of SRC on its region (rule R101). -/
theorem encLoop_holdsResiduals {p : Params} {n : Nat} {src dst : Memory} (ha : p.accepted n) (hd : dst.wf n = true) :
    holdsResiduals p src (encLoop p src dst) := fun _ _ hc => encLoop_read_cell ha hd hc

/-- A decode leaves pixels on its region whose residuals are SRC (rule R102). -/
theorem decLoop_holdsResiduals {p : Params} {n : Nat} {src dst : Memory} (ha : p.accepted n) (hd : dst.wf n = true) :
    holdsResiduals p (decLoop p src dst) src := fun x y hc => by
  rw [decLoop_read_cell ha hd hc]
  exact (rsub32_radd32 _ _).symm

/-- A decode from residuals, next to the pixels at the region's border, leaves the pixels (rule R123). -/
theorem decLoop_read_of_residuals {p : Params} {n : Nat} {pix r dst : Memory} (ha : p.accepted n) (hd : dst.wf n = true)
    (hres : holdsResiduals p pix r) (hborder : holdsBorder p pix dst) :
    ∀ x y, p.inRegion x y → (decLoop p r dst).read (p.cellOffset x y) = pix.read (p.cellOffset x y) := by
  refine pixels_eq_of_residuals ha hres (decLoop_holdsResiduals ha hd) fun x y x' y' hc hn hc' => ?_
  rw [decLoop_read_other ha hd (not_regionOffset_neighbour ha hc hn hc')]
  exact hborder x y x' y' hc hn hc'

/-! ## The whole raster -/

/-- A command on the whole raster takes a step for each of the raster's cells (rule R105). -/
theorem full_command_completes {s : State} {i : Instr} (hs : s.ready) (hi : i.wf = true) (hf : s.params.full) :
    ∃ t u, exec i s = .next t ∧ run (s.params.width * s.params.height) t = .next u ∧ Completed i s u := by
  obtain ⟨-, -, hw, hh⟩ := hf
  rw [← hw, ← hh]
  exact command_completes hs hi

/-- The whole raster has no neighbour outside it. -/
theorem holdsBorder_full {p : Params} (hf : p.full) (pix d : Memory) : holdsBorder p pix d :=
  fun _ _ _ _ hc hn hc' =>
    absurd ((inRegion_full hf).mpr (inRaster_neighbour ((inRegion_full hf).mp hc) hn)) hc'

/-- Buffers that agree on the cells of the whole raster agree on its indices. -/
theorem read_eq_of_full {p : Params} {b b' : Memory} (hf : p.full)
    (h : ∀ x y, p.inRegion x y → b.read (p.cellOffset x y) = b'.read (p.cellOffset x y)) :
    ∀ i, i < p.width * p.height → b.read i = b'.read i := by
  intro i hi
  obtain ⟨x, y, hc, rfl⟩ := exists_cell hi
  exact h x y ((inRegion_full hf).mpr hc)

/-! ## Round trips -/

/-- What the run of an encode leaves in DST. -/
theorem Completed.dst_enc {q : BitVec 3} {s u : State} (hu : Completed (.enc q) s u) :
    u.dst = encLoop s.params s.src s.dst := hu.dst

/-- What the run of a decode leaves in DST. -/
theorem Completed.dst_dec {q : BitVec 3} {s u : State} (hu : Completed (.dec q) s u) :
    u.dst = decLoop s.params s.src s.dst := hu.dst

/-- A state a command can be issued in has accepted parameters and a canonical DST. -/
theorem State.ready.accepted_and_wf {s : State} (hs : s.ready) :
    s.params.accepted s.cfg.nwords ∧ s.dst.wf s.cfg.nwords = true := by
  obtain ⟨⟨-, -, -, -, -, hwf, -, -⟩, -, -, ha⟩ := hs
  exact ⟨ha, hwf⟩

/-- Settles O50: the encode leaves the residuals of SRC, and the whole raster has no border. -/
theorem roundTripWholeRaster : Obligations.RoundTripWholeRaster := by
  unfold Obligations.RoundTripWholeRaster
  intro s hs hf
  obtain ⟨ha, hwf⟩ := hs.accepted_and_wf
  obtain ⟨t, u, hexec, hrun, hu⟩ := full_command_completes (i := .enc 0#3) hs rfl hf
  refine ⟨t, u, hexec, hrun, hu.state, fun s' hs' hparams hsrc => ?_⟩
  obtain ⟨ha', hwf'⟩ := hs'.accepted_and_wf
  obtain ⟨t', u', hexec', hrun', hu'⟩ := full_command_completes (i := .dec 0#3) hs' rfl (hparams ▸ hf)
  rw [hparams] at ha' hrun'
  refine ⟨t', u', hexec', hrun', hu'.state, read_eq_of_full hf ?pixelsBack⟩
  case pixelsBack =>
    rw [hu'.dst_dec, hparams, hsrc, hu.dst_enc]
    exact decLoop_read_of_residuals ha' hwf' (encLoop_holdsResiduals ha hwf) (holdsBorder_full hf _ _)

/-- The neighbours outside a region with cells: the column to its left and the row above it, each with the corner
(rule R123). -/
theorem border_iff {p : Params} {x' y' : Nat} (hw : 0 < p.regionW) (hh : 0 < p.regionH) :
    (∃ x y, p.inRegion x y ∧ isNeighbour x y x' y' ∧ ¬ p.inRegion x' y') ↔
      (x' + 1 = p.originX ∧ p.originY - 1 ≤ y' ∧ y' < p.originY + p.regionH) ∨
      (y' + 1 = p.originY ∧ p.originX - 1 ≤ x' ∧ x' < p.originX + p.regionW) := by
  constructor
  · rintro ⟨x, y, hc, hn, hout⟩
    omega
  · rintro (⟨hx, hlo, hhi⟩ | ⟨hy, hlo, hhi⟩)
    · by_cases hrow : p.originY ≤ y'
      · exact ⟨p.originX, y', by omega, by omega, by omega⟩
      · exact ⟨p.originX, p.originY, by omega, by omega, by omega⟩
    · by_cases hcol : p.originX ≤ x'
      · exact ⟨x', p.originY, by omega, by omega, by omega⟩
      · exact ⟨p.originX, p.originY, by omega, by omega, by omega⟩

/-- Settles O51: the decode loop from residuals beside the border's pixels; and where the border lies. -/
theorem roundTripOneRegion : Obligations.RoundTripOneRegion := by
  unfold Obligations.RoundTripOneRegion
  refine ⟨fun s pix hs hres hborder => ?pixelsBack, fun p x' y' hw hh => border_iff hw hh⟩
  case pixelsBack =>
    obtain ⟨ha, hwf⟩ := hs.accepted_and_wf
    obtain ⟨t, u, hexec, hrun, hu⟩ := command_completes (i := .dec 0#3) hs rfl
    refine ⟨t, u, hexec, hrun, hu.state, ?_⟩
    rw [hu.dst_dec]
    exact decLoop_read_of_residuals ha hwf hres hborder

/-- Settles O52: the decode leaves pixels with the residuals of SRC, which the encode computes from them; residuals
determine the pixels, since the whole raster has no border. -/
theorem encodeOfDecodedRaster : Obligations.EncodeOfDecodedRaster := by
  unfold Obligations.EncodeOfDecodedRaster
  refine ⟨fun s hs hf => ?residualsBack, fun n p pix pix' r ha hf hres hres' => ?unique⟩
  case residualsBack =>
    obtain ⟨ha, hwf⟩ := hs.accepted_and_wf
    obtain ⟨t, u, hexec, hrun, hu⟩ := full_command_completes (i := .dec 0#3) hs rfl hf
    refine ⟨t, u, hexec, hrun, hu.state, fun s' hs' hparams hsrc => ?_⟩
    obtain ⟨ha', hwf'⟩ := hs'.accepted_and_wf
    obtain ⟨t', u', hexec', hrun', hu'⟩ := full_command_completes (i := .enc 0#3) hs' rfl (hparams ▸ hf)
    rw [hparams] at ha' hrun'
    refine ⟨t', u', hexec', hrun', hu'.state, read_eq_of_full hf fun x y hc => ?_⟩
    rw [hu'.dst_enc, hparams, hsrc, hu.dst_dec]
    exact (encLoop_holdsResiduals ha' hwf' x y hc).trans (decLoop_holdsResiduals ha hwf x y hc).symm
  case unique =>
    exact read_eq_of_full hf (pixels_eq_of_residuals ha hres' hres (holdsBorder_full hf _ _))

/-! ## The edges of the raster -/

/-- Without a neighbour the prediction is 0 (rule R121). -/
theorem pred32_origin (b : Memory) {w : Nat} (h : Nat) (hw : 0 < w) : pred32 b w h 0 0 0 = 0#32 := by
  obtain ⟨horigin, -⟩ := predictionShortcuts b w h 0 0 0 hw (Nat.zero_mul w).symm
  exact horigin rfl rfl

/-- In row 0 the prediction is the left neighbour (rule R129). -/
theorem pred32_firstRow (b : Memory) {w x : Nat} (h : Nat) (hx : x < w) (hx0 : 0 < x) :
    pred32 b w h x 0 x = b.read (x - 1) := by
  obtain ⟨-, hrow, -⟩ := predictionShortcuts b w h x 0 x hx (by omega)
  exact hrow rfl hx0

/-- In column 0 the prediction is the up neighbour (rule R128). -/
theorem pred32_firstColumn (b : Memory) {w y : Nat} (h : Nat) (hw : 0 < w) (hy0 : 0 < y) :
    pred32 b w h 0 y (y * w) = b.read ((y - 1) * w) := by
  obtain ⟨-, -, hcolumn, -⟩ := predictionShortcuts b w h 0 y (y * w) hw rfl
  rw [hcolumn rfl hy0, Nat.sub_one_mul]

/-- Settles O31: the word above starts its row, so for two or more columns the end of that row is another word. -/
theorem leftColumnLaw : Obligations.LeftColumnLaw := by
  unfold Obligations.LeftColumnLaw
  refine fun n b w h y hwf hw hy0 => ⟨pred32_firstColumn b h hw hy0, fun hw2 v => ?endOfRowAbove⟩
  case endOfRowAbove =>
    have hrow : w ≤ y * w := Nat.le_mul_of_pos_left w hy0
    have hne : (y - 1) * w ≠ y * w - 1 := by rw [Nat.sub_one_mul]; omega
    rw [pred32_firstColumn _ h hw hy0, pred32_firstColumn _ h hw hy0, Memory.read_write_other hwf hne]

/-- At cell (0,0) either command writes the word of SRC (rule R121). -/
theorem opWord_origin (op : Op) {p : Params} (src dst : Memory) (hw : 0 < p.width) :
    opWord op p src dst (0, 0) = src.read 0 := by
  have hoff : p.cellOffset 0 0 = 0 := Nat.zero_mul p.width
  cases op with
  | enc => rw [opWord, encWord, hoff, pred32_origin _ _ hw, rsub32_zero]
  | dec => rw [opWord, decWord, hoff, pred32_origin _ _ hw, radd32_zero]

theorem step_of_run_one {s t : State} (h : run 1 s = .next t) : step s = .next t := by
  cases hs : step s with
  | next s' => rw [← h, run_one hs]
  | fault r => exact absurd (h.symm.trans (coreRun_fault Sys2Proof.core hs 0)) (by simp)
  | refused r => exact absurd (h.symm.trans (coreRun_refused Sys2Proof.core hs 0)) (by simp)

/-- A region that contains cell (0,0) is scanned from there (rule R98). -/
theorem take_one_regionCells {p : Params} (hc : p.inRegion 0 0) : (regionCells p).take 1 = [(0, 0)] := by
  obtain ⟨hx, hw, hy, hh⟩ := hc
  have hpos : 0 < p.regionW * p.regionH := Nat.mul_pos (by omega) (by omega)
  have hfirst : nthCell p 0 = (0, 0) := by
    rw [nthCell, Nat.zero_mod, Nat.zero_div, Nat.le_zero.mp hx, Nat.le_zero.mp hy]
  rw [List.take_add_one, regionCells_getElem? hpos, hfirst]
  rfl

/-- Settles O49: the first step processes the region's first cell, which is (0,0). -/
theorem boundaryLaw : Obligations.BoundaryLaw := by
  unfold Obligations.BoundaryLaw
  intro s i hs hi hc
  obtain ⟨ha, hwf⟩ := hs.accepted_and_wf
  have hsize : 1 ≤ s.params.regionW * s.params.regionH := by
    rw [← regionCells_length]
    exact List.length_pos_of_mem (mem_regionCells (c := (0, 0)).mpr hc)
  obtain ⟨t, u, hexec, hrun, -, -, -, -, -, -, -, -, -, hdst, -, -⟩ := command_run hs hi hsize
  refine ⟨t, u, hexec, step_of_run_one hrun, ?_⟩
  have hwrite : u.dst = s.dst.write (s.params.cellOffset 0 0) (s.src.read 0) := by
    rw [hdst, take_one_regionCells hc, ← opWord_origin (opOf i) s.src s.dst (inRaster_of_inRegion ha hc).1]
    cases opOf i <;> rfl
  have hoff : s.params.cellOffset 0 0 = 0 := Nat.zero_mul s.params.width
  rw [hwrite, hoff, Memory.read_write_same hwf]

/-- Settles O57: the residual of rule R101 at a cell of the edge, where the prediction is 0 or one neighbour. -/
theorem firstRowAndColumn : Obligations.FirstRowAndColumn := by
  unfold Obligations.FirstRowAndColumn
  intro n p src d ha hf hd
  have hword : ∀ {x y off}, x < p.width → y < p.height → p.cellOffset x y = off →
      (encLoop p src d).read off = rsub32 (src.read off) (pred32 src p.width p.height x y off) := by
    rintro x y _ hx hy rfl
    exact encLoop_read_cell ha hd ((inRegion_full hf).mpr ⟨hx, hy⟩)
  refine ⟨fun hw hh => ?origin, fun x hx0 hx hh => ?row, fun y hy0 hy hw => ?column⟩
  case origin => rw [hword hw hh (Nat.zero_mul _), pred32_origin _ _ hw, rsub32_zero]
  case row => rw [hword hx hh (by rw [Params.cellOffset]; omega), pred32_firstRow _ _ hx hx0]
  case column => rw [hword hw hy (Nat.add_zero _), pred32_firstColumn _ _ hw hy0]

/-! ## Order of the cells and tiles -/

/-- An encode over any list of cells leaves at each of them the word of rule R100, which DST has no part in. -/
theorem encCells_read_cell {p : Params} {n x y : Nat} {src dst : Memory} {cells : List (Nat × Nat)} (ha : p.accepted n)
    (hd : dst.wf n = true) (hcells : ∀ c ∈ cells, p.inRegion c.1 c.2) (hc : (x, y) ∈ cells) :
    (encCells p src cells dst).read (p.cellOffset x y) = encWord pred32 p src x y := by
  induction cells generalizing dst with
  | nil => cases hc
  | cons c rest ih =>
    obtain ⟨hfirst, hrest⟩ := List.forall_mem_cons.mp hcells
    have hd' := Memory.wf_write (v := encWord pred32 p src c.1 c.2) hd (cellOffset_lt_nwords ha hfirst)
    by_cases hlater : (x, y) ∈ rest
    · exact ih hd' hrest hlater
    · obtain rfl := (List.mem_cons.mp hc).resolve_right hlater
      have hother : ∀ c ∈ rest, p.cellOffset x y ≠ p.cellOffset c.1 c.2 := fun c hmem he => by
        obtain ⟨rfl, rfl⟩ := cellOffset_inj (inRaster_of_inRegion ha hfirst).1
          (inRaster_of_inRegion ha (hrest c hmem)).1 he
        exact hlater hmem
      calc (encCells p src ((x, y) :: rest) dst).read (p.cellOffset x y)
          = (dst.write (p.cellOffset x y) (encWord pred32 p src x y)).read (p.cellOffset x y) :=
            read_foldl_write_other hd' (fun c hmem => cellOffset_lt_nwords ha (hrest c hmem)) hother
        _ = encWord pred32 p src x y := Memory.read_write_same hd

/-- What an encode over a list of cells leaves depends only on which cells are listed (rule R125). -/
theorem encCells_eq_of_mem_iff {p : Params} {n : Nat} {src dst : Memory} {cells cells' : List (Nat × Nat)}
    (ha : p.accepted n) (hd : dst.wf n = true) (hcells : ∀ c ∈ cells, p.inRegion c.1 c.2)
    (hmem : ∀ c, c ∈ cells ↔ c ∈ cells') : encCells p src cells dst = encCells p src cells' dst := by
  have hcells' : ∀ c ∈ cells', p.inRegion c.1 c.2 := fun c hc => hcells c ((hmem c).mpr hc)
  have hlt : ∀ c ∈ cells, p.cellOffset c.1 c.2 < n := fun c hc => cellOffset_lt_nwords ha (hcells c hc)
  have hlt' : ∀ c ∈ cells', p.cellOffset c.1 c.2 < n := fun c hc => cellOffset_lt_nwords ha (hcells' c hc)
  refine Memory.ext_wf (wf_foldl_write hd hlt) (wf_foldl_write hd hlt') fun i => ?_
  by_cases hi : ∃ c ∈ cells, i = p.cellOffset c.1 c.2
  · obtain ⟨c, hc, rfl⟩ := hi
    exact (encCells_read_cell ha hd hcells hc).trans (encCells_read_cell ha hd hcells' ((hmem c).mp hc)).symm
  · have hother : ∀ c ∈ cells, i ≠ p.cellOffset c.1 c.2 := fun c hc he => hi ⟨c, hc, he⟩
    exact (read_foldl_write_other hd hlt hother).trans
      (read_foldl_write_other hd hlt' fun c hc => hother c ((hmem c).mpr hc)).symm

/-- Settles O55: a permutation lists the same cells. -/
theorem encodeOrderFree : Obligations.EncodeOrderFree := by
  unfold Obligations.EncodeOrderFree
  intro n p src d cells ha hd hperm
  exact encCells_eq_of_mem_iff ha hd (fun c hc => mem_regionCells.mp (hperm.mem_iff.mp hc)) fun c => hperm.mem_iff

/-- The encode of a tile is a part of the encode of its raster: only the raster's sides enter a cell's word. -/
theorem encLoop_eq_encCells {p g : Params} (src dst : Memory) (hw : g.width = p.width) (hh : g.height = p.height) :
    encLoop g src dst = encCells p src (regionCells g) dst := by
  unfold encLoop encCells encWord Params.cellOffset
  rw [hw, hh]

/-- Tiles encoded in turn are one encode over their cells in turn. -/
theorem foldl_encLoop {p : Params} {gs : List Params} (src dst : Memory)
    (hgs : ∀ g ∈ gs, g.width = p.width ∧ g.height = p.height) :
    gs.foldl (fun d g => encLoop g src d) dst = encCells p src (gs.flatMap regionCells) dst := by
  induction gs generalizing dst with
  | nil => rfl
  | cons g rest ih =>
    obtain ⟨⟨hw, hh⟩, hrest⟩ := List.forall_mem_cons.mp hgs
    rw [List.foldl_cons, ih _ hrest, encLoop_eq_encCells src dst hw hh, List.flatMap_cons]
    exact List.foldl_append.symm

/-- Settles O54: the tiles' cells are those of the region, and only which cells are encoded matters. -/
theorem tiledEncode : Obligations.TiledEncode := by
  unfold Obligations.TiledEncode
  intro n p src d gs ha hd hgs hcover
  have hsub : ∀ c ∈ gs.flatMap regionCells, p.inRegion c.1 c.2 := fun c hc => by
    obtain ⟨g, hg, hcg⟩ := List.mem_flatMap.mp hc
    obtain ⟨-, -, -, hin⟩ := hgs g hg
    exact hin c.1 c.2 (mem_regionCells.mp hcg)
  have hall : ∀ c ∈ regionCells p, c ∈ gs.flatMap regionCells := fun c hc => by
    obtain ⟨g, hg, hcg⟩ := hcover c.1 c.2 (mem_regionCells.mp hc)
    exact List.mem_flatMap.mpr ⟨g, hg, mem_regionCells.mpr hcg⟩
  calc gs.foldl (fun d g => encLoop g src d) d
      = encCells p src (gs.flatMap regionCells) d :=
        foldl_encLoop src d fun g hg => by
          obtain ⟨hw, hh, -, -⟩ := hgs g hg
          exact ⟨hw, hh⟩
    _ = encLoop p src d :=
        encCells_eq_of_mem_iff ha hd hsub fun c => ⟨fun hc => mem_regionCells.mpr (hsub c hc), hall c⟩

/-! ## Lanes -/

/-- A lane of an encode's words depends only on that lane of the words it reads (rule R127). -/
theorem lane_encLoop_congr {p : Params} {n : Nat} {k k' : Fin 4} {src src' d d' : Memory} (ha : p.accepted n)
    (hd : d.wf n = true) (hd' : d'.wf n = true)
    (hsrc : ∀ x y, p.inRegion x y → lane (src.read (p.cellOffset x y)) k = lane (src'.read (p.cellOffset x y)) k')
    (hnb : ∀ x y x' y', p.inRegion x y → isNeighbour x y x' y' →
      lane (src.read (p.cellOffset x' y')) k = lane (src'.read (p.cellOffset x' y')) k') :
    ∀ x y, p.inRegion x y →
      lane ((encLoop p src d).read (p.cellOffset x y)) k = lane ((encLoop p src' d').read (p.cellOffset x y)) k' := by
  intro x y hc
  rw [encLoop_read_cell ha hd hc, encLoop_read_cell ha hd' hc, encWord, encWord, lane_rsub32, lane_rsub32, hsrc x y hc,
    lane_pred32_congr (inRaster_of_inRegion ha hc).1 fun x' y' hn => hnb x y x' y' hc hn]

/-- A lane of a decode's words depends only on that lane of SRC and of DST outside the region, cell by cell along the scan
(rule R127). -/
theorem lane_decLoop_congr {p : Params} {n : Nat} {k k' : Fin 4} {src src' d d' : Memory} (ha : p.accepted n)
    (hd : d.wf n = true) (hd' : d'.wf n = true)
    (hsrc : ∀ x y, p.inRegion x y → lane (src.read (p.cellOffset x y)) k = lane (src'.read (p.cellOffset x y)) k')
    (hborder : ∀ x y x' y', p.inRegion x y → isNeighbour x y x' y' → ¬ p.inRegion x' y' →
      lane (d.read (p.cellOffset x' y')) k = lane (d'.read (p.cellOffset x' y')) k') :
    ∀ x y, p.inRegion x y →
      lane ((decLoop p src d).read (p.cellOffset x y)) k = lane ((decLoop p src' d').read (p.cellOffset x y)) k' := by
  refine inRegion_induction ha fun x y hc ih => ?_
  have hnb : ∀ x' y', isNeighbour x y x' y' →
      lane ((decLoop p src d).read (p.cellOffset x' y')) k = lane ((decLoop p src' d').read (p.cellOffset x' y')) k' := by
    intro x' y' hn
    by_cases hc' : p.inRegion x' y'
    · exact ih x' y' hn hc'
    · have hout := not_regionOffset_neighbour ha hc hn hc'
      rw [decLoop_read_other ha hd hout, decLoop_read_other ha hd' hout]
      exact hborder x y x' y' hc hn hc'
  rw [decLoop_read_cell ha hd hc, decLoop_read_cell ha hd' hc, decWord, decWord, lane_radd32, lane_radd32, hsrc x y hc,
    lane_pred32_congr (inRaster_of_inRegion ha hc).1 hnb]

/-- Settles O56: the encode cell by cell from SRC, the decode along the scan. -/
theorem laneIndependence : Obligations.LaneIndependence := by
  unfold Obligations.LaneIndependence
  intro n p k k' src src' d d' ha hd hd' hsrc
  exact ⟨lane_encLoop_congr ha hd hd' hsrc, lane_decLoop_congr ha hd hd' hsrc⟩

end Sys2Proof.Machine

/-! # The start check and the fault (spec/60_exceptions.md) -/

namespace Sys2Proof.Machine

/-! ## The order of the start check -/

/-- When the byte names an existing predictor, the start check is that of the parameter registers (rule R136). -/
theorem startCheck_byteOk {c : Byte} (hr : cmdRsv c = 0#4) (hp : cmdPred c = 0#3) (n : Nat) (p : Params) :
    startCheck c n p =
      if p.rasterSize > n then some .eSize
      else if p.regionRight > p.width then some .eRegionX
      else if p.regionBottom > p.height then some .eRegionY
      else none :=
  (if_neg (not_not_intro hr)).trans (if_neg (not_not_intro hp))

theorem startCheck_eSize {c : Byte} {n : Nat} {p : Params} (hr : cmdRsv c = 0#4) (hp : cmdPred c = 0#3)
    (hsize : n < p.rasterSize) : startCheck c n p = some .eSize :=
  (startCheck_byteOk hr hp n p).trans (if_pos hsize)

theorem startCheck_eRegionX {c : Byte} {n : Nat} {p : Params} (hr : cmdRsv c = 0#4) (hp : cmdPred c = 0#3)
    (hsize : p.rasterSize ≤ n) (hx : p.width < p.regionRight) : startCheck c n p = some .eRegionX := by
  rw [startCheck_byteOk hr hp, if_neg hsize.not_gt, if_pos hx]

theorem startCheck_eRegionY {c : Byte} {n : Nat} {p : Params} (hr : cmdRsv c = 0#4) (hp : cmdPred c = 0#3)
    (hsize : p.rasterSize ≤ n) (hx : p.regionRight ≤ p.width) (hy : p.height < p.regionBottom) :
    startCheck c n p = some .eRegionY := by
  rw [startCheck_byteOk hr hp, if_neg hsize.not_gt, if_neg hx.not_gt, if_pos hy]

/-- Settles O7: one lemma per code; a pass means that the parameters are accepted, which puts the region in the raster
and the raster in the buffers. -/
theorem startCheckOrder : Obligations.StartCheckOrder := by
  unfold Obligations.StartCheckOrder
  intro c n p
  refine ⟨fun hr => startCheck_eCmd hr n p, fun hr hp => startCheck_ePred hr hp n p, startCheck_eSize,
    startCheck_eRegionX, startCheck_eRegionY,
    fun hr hp hsize hx hy => startCheck_eq_none.mpr ⟨hr, hp, hsize, hx, hy⟩, fun h x y hc => ?guarantee⟩
  case guarantee =>
    obtain ⟨-, -, ha⟩ := startCheck_eq_none.mp h
    have hraster : p.inRaster x y := inRaster_of_inRegion ha hc
    exact ⟨hraster.1, hraster.2, cellOffset_lt hraster, ha.1⟩

/-! ## The fault -/

/-- A command that fails the start check, given to an engine that is not BUSY, sets STATUS and nothing else
(rule R137). -/
theorem exec_fault {i : Instr} {s : State} {code : FaultCode} (hb : s.state ≠ .busy)
    (hc : startCheck (encode i) s.cfg.nwords s.params = some code) :
    exec i s = .next { s with state := .error, errCode := some code } := by
  rw [exec_eq_issue, issue_fault hb hc]
  rfl

/-- Settles O8: a byte and a command are both an issue, which takes the fault before it latches anything. -/
theorem faultIsPrecise : Obligations.FaultIsPrecise := by
  unfold Obligations.FaultIsPrecise
  exact ⟨fun _ _ _ => commandByte_fault, fun _ _ _ => exec_fault⟩

end Sys2Proof.Machine

/-! # The reset event and a run given up (spec/70_reset_and_hazards.md) -/

namespace Sys2Proof.Machine

/-! ## The reset event -/

/-- A reset turn is the reset event, in any state (rule R155). -/
theorem step_reset {s : State} {rest : List Turn} (h : s.schedule = .host .reset :: rest) :
    step s = .next (applyReset { s with schedule := rest }) := by
  rw [step_host h, popTurn_eq h]
  rfl

/-- Settles O42: the fields of the reset event that the rules specify. -/
theorem resetEvent : Obligations.ResetEvent := by
  unfold Obligations.ResetEvent
  exact fun s rest h => ⟨_, step_reset h, rfl, rfl, rfl, rfl, rfl, rfl, rfl, rfl⟩

/-! ## A command given again -/

/-- What the loop of a command leaves depends on nothing that DST held at the region's own cells (rule R103). -/
theorem opCells_eq_of_agree_outside {op : Op} {p : Params} {n : Nat} {src d d' : Memory} (ha : p.accepted n)
    (hd : d.wf n = true) (hd' : d'.wf n = true) (hagree : ∀ i, ¬ p.regionOffset i → d.read i = d'.read i) :
    opCells op p src (regionCells p) d = opCells op p src (regionCells p) d' := by
  cases op with
  | enc =>
    refine Memory.ext_wf (encLoop_wf ha hd) (encLoop_wf ha hd') fun i => ?_
    by_cases hi : p.regionOffset i
    · obtain ⟨x, y, hc, rfl⟩ := hi
      exact (encLoop_read_cell ha hd hc).trans (encLoop_read_cell ha hd' hc).symm
    · exact (encLoop_read_other ha hd hi).trans ((hagree i hi).trans (encLoop_read_other ha hd' hi).symm)
  | dec =>
    refine Memory.ext_wf (decLoop_wf ha hd) (decLoop_wf ha hd') fun i => ?_
    by_cases hi : p.regionOffset i
    · obtain ⟨x, y, hc, rfl⟩ := hi
      exact decLoop_congr ha hd hd'
        (fun _ _ _ _ hc hn hc' => hagree _ (not_regionOffset_neighbour ha hc hn hc')) x y hc
    · exact (decLoop_read_other ha hd hi).trans ((hagree i hi).trans (decLoop_read_other ha hd' hi).symm)

/-- A loop over cells of the region leaves every word alone that is at no offset of the region. -/
theorem opCells_read_other {op : Op} {p : Params} {n i : Nat} {src d : Memory} {cells : List (Nat × Nat)}
    (ha : p.accepted n) (hd : d.wf n = true) (hcells : ∀ c ∈ cells, p.inRegion c.1 c.2) (hi : ¬ p.regionOffset i) :
    (opCells op p src cells d).read i = d.read i := by
  have hlt : ∀ c ∈ cells, p.cellOffset c.1 c.2 < n := fun c hc => cellOffset_lt_nwords ha (hcells c hc)
  have hne : ∀ c ∈ cells, i ≠ p.cellOffset c.1 c.2 := fun c hc he => hi ⟨c.1, c.2, hcells c hc, he⟩
  cases op with
  | enc => exact read_foldl_write_other hd hlt hne
  | dec => exact read_foldl_write_other hd hlt hne

/-- While the engine is not BUSY the parameter registers may hold any values of their width. -/
theorem inv_setParams {s : State} {p : Params} (h : s.Inv) (hb : s.state ≠ .busy) (hp : p.fits s.cfg.cw) :
    State.Inv { s with params := p } := by
  obtain ⟨hcfg, -, hx, hy, hsrc, hdst, herr, -⟩ := h
  exact ⟨hcfg, hp, hx, hy, hsrc, hdst, herr, fun hb' => absurd hb' hb⟩

/-- After a reset a command can be issued again once the parameter registers are set as before: the reset answers IDLE, and
the registers passed the start check with the same `NWORDS`. -/
theorem reset_then_ready {s u : State} (hs : s.ready) (hu : u.Inv) (hcfg : u.cfg = s.cfg) :
    State.ready { applyReset { u with schedule := [] } with params := s.params } := by
  obtain ⟨⟨-, hfits, -⟩, -, -, ha⟩ := hs
  have hidle : EngineState.idle ≠ .busy := by decide
  have hfits' : s.params.fits u.cfg.cw := by rw [hcfg]; exact hfits
  have ha' : s.params.accepted u.cfg.nwords := by rw [hcfg]; exact ha
  exact ⟨inv_setParams (applyReset_inv (s := { u with schedule := [] }) hu) hidle hfits', hidle, rfl, ha'⟩

/-- Rule R156 for either command: the reset leaves the loop's result on the first `k` cells, which are cells of the region,
so the command given again leaves the loop's result. -/
theorem reset_then_command {s : State} {i : Instr} {k : Nat} (hs : s.ready) (hi : i.wf = true)
    (hk : k < s.params.regionW * s.params.regionH) :
    ∃ t u v t' u', exec i s = .next t ∧ run k t = .next u ∧ u.state = .busy ∧
      step { u with schedule := [.host .reset] } = .next v ∧ v.state = .idle ∧ v.params = ⟨0, 0, 0, 0, 0, 0⟩ ∧
      v.src = s.src ∧ v.dst = opCells (opOf i) s.params s.src ((regionCells s.params).take k) s.dst ∧
      exec i { v with params := s.params } = .next t' ∧
      run (s.params.regionW * s.params.regionH) t' = .next u' ∧ u'.state = .done ∧
      u'.dst = opCells (opOf i) s.params s.src (regionCells s.params) s.dst := by
  obtain ⟨ha, hwf⟩ := hs.accepted_and_wf
  obtain ⟨t, u, hexec, hrun, huinv, hcfg, -, -, hsrc, -, -, -, -, hdst, hbusy, -⟩ := command_run hs hi hk.le
  obtain ⟨t', u', hexec', hrun', hu'⟩ := command_completes (reset_then_ready hs huinv hcfg) hi
  obtain ⟨hub, -, -⟩ := hbusy hk
  refine ⟨t, u, _, t', u', hexec, hrun, hub, step_reset rfl, rfl, rfl, hsrc, hdst, hexec', hrun', hu'.state, ?_⟩
  have huwf : u.dst.wf s.cfg.nwords = true := by
    obtain ⟨-, -, -, -, -, h, -, -⟩ := huinv
    rw [← hcfg]; exact h
  have hagree : ∀ j, ¬ s.params.regionOffset j → u.dst.read j = s.dst.read j := fun j hj => by
    rw [hdst]
    exact opCells_read_other ha hwf (fun c hc => mem_regionCells.mp (List.mem_of_mem_take hc)) hj
  calc u'.dst
      = opCells (opOf i) s.params u.src (regionCells s.params) u.dst := hu'.dst
    _ = opCells (opOf i) s.params s.src (regionCells s.params) s.dst := by
        rw [hsrc]
        exact opCells_eq_of_agree_outside ha huwf hwf hagree

/-- Settles O43: the same for `ENC` and for `DEC`. -/
theorem resetWhileBusy : Obligations.ResetWhileBusy := by
  unfold Obligations.ResetWhileBusy
  exact fun s k hs hk => ⟨reset_then_command (i := .enc 0#3) hs rfl hk, reset_then_command (i := .dec 0#3) hs rfl hk⟩

/-! ## The invariant -/

/-- Settles O40: every turn of the engine and every action of the host keeps the invariant. -/
theorem everyStepKeepsInv : Obligations.EveryStepKeepsInv := fun _ _ => step_inv

end Sys2Proof.Machine

/-! # `WAIT` and the pseudo-commands (spec/30_encoding.md section 6) -/

namespace Sys2Proof.Machine

/-! ## `WAIT` -/

/-- `WAIT` on an engine that is not BUSY is one read of STATUS (rule R59). -/
theorem step_wait_over {s : State} {rest : List Turn} (h : s.schedule = .host .wait :: rest) (hb : s.state ≠ .busy) :
    step s = .next { s with schedule := rest, received := (statusByte s).toNat :: s.received } := by
  rw [step_host h, popTurn_eq h]
  exact congrArg _ (if_neg hb)

/-- `WAIT` on a BUSY engine reads STATUS, lets the engine have a turn and comes again (rule R59, log entry 8). -/
theorem step_wait_busy {s : State} {rest : List Turn} (h : s.schedule = .host .wait :: rest) (hb : s.state = .busy) :
    step s = .next { s with
      schedule := .engine :: .host .wait :: rest
      received := (statusByte s).toNat :: s.received } := by
  rw [step_host h, popTurn_eq h]
  exact congrArg _ (if_pos hb)

/-- Settles O15: the two cases of a poll. -/
theorem waitReadsStatus : Obligations.WaitReadsStatus := fun _ _ h => ⟨step_wait_over h, step_wait_busy h⟩

/-! ## A command under `WAIT` -/

/-- A poll of `WAIT` on a running command and the engine's turn after it process one cell; nothing but the record of reads
tells this from the engine's turn alone. -/
theorem atCell_poll_and_turn {s : State} {k : Nat} {rest : List Turn} (h : AtCell s k)
    (hq : s.schedule = .host .wait :: rest) (hk : k < s.params.regionW * s.params.regionH) :
    ∃ t, run 2 s = .next t ∧ SameCommand { s with received := t.received } t ∧
      t.dst = s.dst.write (s.params.cellOffset (nthCell s.params k).1 (nthCell s.params k).2)
        (opWord s.actOp s.params s.src s.dst (nthCell s.params k)) ∧
      (k + 1 < s.params.regionW * s.params.regionH → AtCell t (k + 1)) ∧
      (k + 1 = s.params.regionW * s.params.regionH → t.state = .done) := by
  have hpolled : AtCell { s with received := (statusByte s).toNat :: s.received } k := ⟨h.inv, h.busy, h.x, h.y⟩
  obtain ⟨t, hturn, hsame, -, hdst, hat, hdone⟩ := hpolled.turn hk
  have hpop : State.popTurn { s with
      schedule := .engine :: .host .wait :: rest
      received := (statusByte s).toNat :: s.received } =
      { s with received := (statusByte s).toNat :: s.received } := by
    rw [State.popTurn, List.tail_cons, ← hq]
  refine ⟨t, ?_, by rw [hsame.received]; exact hsame, hdst, hat, hdone⟩
  rw [run_succ_of_step (step_wait_busy hq h.busy)]
  exact run_one (by rw [step_engine (Or.inr rfl), hpop, hturn])

/-- A command from its first cell under `WAIT`: after `k` polls and as many turns of the engine the first `k` cells of the
scan have been processed in order. -/
theorem atCell_polled_run {s : State} {rest : List Turn} (h : AtCell s 0) (hq : s.schedule = .host .wait :: rest)
    (hn : 0 < s.params.regionW * s.params.regionH) {k : Nat} (hk : k ≤ s.params.regionW * s.params.regionH) :
    ∃ t, run (2 * k) s = .next t ∧ SameCommand { s with received := t.received } t ∧
      t.dst = opCells s.actOp s.params s.src ((regionCells s.params).take k) s.dst ∧
      (k < s.params.regionW * s.params.regionH → AtCell t k) ∧
      (k = s.params.regionW * s.params.regionH → t.state = .done) := by
  induction k with
  | zero =>
    refine ⟨s, rfl, SameCommand.rfl' s, ?_, fun _ => h, fun h0 => by omega⟩
    cases s.actOp <;> rfl
  | succ k ih =>
    obtain ⟨t, hrun, hsame, hdst, hat, -⟩ := ih (by omega)
    have hparams : t.params = s.params := hsame.params
    obtain ⟨u, hrun', hsame', hdst', hat', hdone'⟩ :=
      atCell_poll_and_turn (hat (by omega)) (hsame.schedule.trans hq) (by rw [hparams]; omega)
    rw [hparams] at hdst' hat' hdone'
    have hfrom : SameCommand { s with received := u.received } { t with received := u.received } :=
      ⟨hsame.cfg, hsame.params, hsame.errCode, hsame.actOp, hsame.actPred, hsame.src, hsame.schedule, rfl⟩
    refine ⟨u, (run_add hrun 2).trans hrun', hfrom.trans hsame', ?_, hat', hdone'⟩
    rw [hdst', List.take_add_one, regionCells_getElem? (by omega), Option.toList_some, opCells_append_one, ← hdst,
      hsame.actOp, hsame.src]

/-- A command issued while the next turn is `WAIT` is finished after a poll and a turn of the engine for each cell of its
region. -/
theorem polled_command_completes {s : State} {i : Instr} {rest : List Turn} (hinv : s.Inv) (hb : s.state ≠ .busy)
    (ha : s.params.accepted s.cfg.nwords) (hi : i.wf = true) (hq : s.schedule = .host .wait :: rest) :
    ∃ t, run (2 * (s.params.regionW * s.params.regionH)) (issue (encode i) s) = .next t ∧
      Completed i { s with received := t.received } t := by
  have hc : startCheck (encode i) s.cfg.nwords s.params = none := startCheck_encode hi ha
  have hissued : (issue (encode i) s).Inv := issue_inv hinv
  by_cases he : s.params.regionW = 0 ∨ s.params.regionH = 0
  · have hn : s.params.regionW * s.params.regionH = 0 := Nat.mul_eq_zero.mpr he
    have hcells : regionCells s.params = [] := by rw [regionCells_eq_map, hn]; rfl
    rw [issue_pass_empty hb hc he, hn]
    refine ⟨_, rfl, rfl, rfl, ofBit_cmdOp_encode i, rfl, ?_, rfl, rfl, rfl, rfl, rfl⟩
    rw [hcells]
    cases i <;> rfl
  · have hn : 0 < s.params.regionW * s.params.regionH := Nat.mul_pos (by omega) (by omega)
    rw [issue_pass_cells hb hc he] at hissued ⊢
    have hat : AtCell { s with
        errCode := none
        actOp := Op.ofBit (cmdOp (encode i))
        actPred := 0#3
        curX := s.params.originX
        curY := s.params.originY
        state := .busy } 0 := ⟨hissued, rfl, by simp [nthCell], by simp [nthCell]⟩
    obtain ⟨t, hrun, hsame, hdst, -, hdone⟩ := atCell_polled_run hat hq hn le_rfl
    rw [take_all_regionCells, ofBit_cmdOp_encode] at hdst
    exact ⟨t, hrun, hdone rfl, hsame.errCode, hsame.actOp.trans (ofBit_cmdOp_encode i), hsame.actPred, hdst, hsame.src,
      hsame.params, hsame.cfg, hsame.schedule, rfl⟩

/-! ## Pseudo-commands -/

/-- Writes of parameter registers as the next turns of an engine that is not BUSY set these registers in turn
(rule R17). -/
theorem run_paramWrites {s : State} {rest : List Turn} {ws : List (Nat × Nat)} (hb : s.state ≠ .busy)
    (hws : ∀ w ∈ ws, w.1 ≠ 6 ∧ w.2 < 2 ^ s.cfg.cw)
    (hq : s.schedule = (ws.map fun w => .host (.write w.1 w.2)) ++ rest) :
    run ws.length s = .next { s with schedule := rest, params := ws.foldl (fun p w => p.set w.1 w.2) s.params } := by
  induction ws generalizing s with
  | nil =>
    subst hq
    rfl
  | cons w ws ih =>
    obtain ⟨⟨hindex, hvalue⟩, hrest⟩ := List.forall_mem_cons.mp hws
    have hstep := step_write_param hq hb hindex
    rw [Nat.mod_eq_of_lt hvalue] at hstep
    exact (run_succ_of_step hstep ws.length).trans (ih hb hrest rfl)

/-- The six register writes that begin a pseudo-command (rule R60). -/
theorem run_setParams {s : State} {w h ox oy rw rh : Nat} {rest : List Turn} (hb : s.state ≠ .busy)
    (hfits : Params.fits s.cfg.cw ⟨w, h, ox, oy, rw, rh⟩)
    (hq : s.schedule = hostTurns (setParams w h ox oy rw rh) ++ rest) :
    run 6 s = .next { s with schedule := rest, params := ⟨w, h, ox, oy, rw, rh⟩ } := by
  obtain ⟨h0, h1, h2, h3, h4, h5⟩ := hfits
  refine run_paramWrites (ws := [(0, w), (1, h), (2, ox), (3, oy), (4, rw), (5, rh)]) hb ?_ hq
  simp [h0, h1, h2, h3, h4, h5]

/-- `STATUS` of a finished command (rule R56). -/
theorem Completed.statusByte_eq {i : Instr} {s u : State} (hu : Completed i s u) : statusByte u = 0x02#8 := by
  rw [statusByte, hu.errCode, hu.state]
  rfl

/-- A pseudo-command of either kind: the registers are set, the command is issued, and `WAIT` polls until it is done
(rules R60, R161). -/
theorem pseudoCommand_completes {s : State} {i : Instr} {w h ox oy rw rh : Nat} (hi : i.wf = true) (hinv : s.Inv)
    (hb : s.state ≠ .busy) (hfits : Params.fits s.cfg.cw ⟨w, h, ox, oy, rw, rh⟩)
    (ha : Params.accepted s.cfg.nwords ⟨w, h, ox, oy, rw, rh⟩)
    (hq : s.schedule = hostTurns (setParams w h ox oy rw rh ++ [.write 6 (encode i).toNat, .wait])) :
    ∃ u, run (8 + 2 * (rw * rh)) s = .next u ∧ u.state = .done ∧ u.schedule = [] ∧
      u.params = ⟨w, h, ox, oy, rw, rh⟩ ∧ u.received.head? = some 0x02 ∧ u.src = s.src ∧
      u.dst = opCells (opOf i) ⟨w, h, ox, oy, rw, rh⟩ s.src (regionCells ⟨w, h, ox, oy, rw, rh⟩) s.dst := by
  have hset := run_setParams (rest := [.host (.write 6 (encode i).toNat), .host .wait]) hb hfits hq
  have hcommand := step_issue (s := { s with
    schedule := [.host (.write 6 (encode i).toNat), .host .wait], params := ⟨w, h, ox, oy, rw, rh⟩ }) rfl hb
  obtain ⟨t, hrun, ht⟩ := polled_command_completes (i := i) (s := { s with
    schedule := [.host .wait], params := ⟨w, h, ox, oy, rw, rh⟩ }) (inv_setParams hinv hb hfits) hb ha hi rfl
  have hnotBusy : t.state ≠ .busy := by rw [ht.state]; decide
  have hlast := step_wait_over ht.schedule hnotBusy
  refine ⟨{ t with schedule := [], received := (statusByte t).toNat :: t.received }, ?steps, ht.state, rfl,
    ht.params, ?status, ht.src, ht.dst⟩
  case steps =>
    have hsteps : 8 + 2 * (rw * rh) = 6 + (2 * (rw * rh) + 1 + 1) := by omega
    rw [hsteps, run_add hset, run_succ_of_step hcommand, run_add hrun]
    exact run_one hlast
  case status => rw [ht.statusByte_eq]; rfl

/-- Settles O60: each pseudo-command issues the byte of its command. -/
theorem pseudoCommands : Obligations.PseudoCommands := by
  unfold Obligations.PseudoCommands
  exact fun s w h ox oy rw rh hinv hb hfits ha =>
    ⟨pseudoCommand_completes (i := .enc 0#3) rfl hinv hb hfits ha,
      pseudoCommand_completes (i := .dec 0#3) rfl hinv hb hfits ha⟩

end Sys2Proof.Machine

/-! # Commands as bytes (spec/30_encoding.md) and their issue (spec/42_scan.md, spec/60_exceptions.md) -/

namespace Sys2Proof.Machine

/-! ## The decoder and the encoder -/

/-- A byte with `RSV = 0` decodes by its other two fields (rule R52). -/
theorem decode_of_rsv_zero {c : Byte} (h : cmdRsv c = 0#4) :
    decode c = if cmdOp c = 0#1 then .ok (.enc (cmdPred c)) else .ok (.dec (cmdPred c)) :=
  if_neg (not_not_intro h)

/-- A byte with a bit of `RSV` set is rejected with these bits (rule R57). -/
theorem decode_of_rsv_ne_zero {c : Byte} (h : cmdRsv c ≠ 0#4) : decode c = .error (.reservedBits (cmdRsv c)) :=
  if_pos h

/-- Settles O1: bytes written out. -/
theorem commandBytesDecode : Obligations.CommandBytesDecode := by
  unfold Obligations.CommandBytesDecode
  exact ⟨rfl, rfl, rfl, rfl, rfl, rfl⟩

/-- Settles O2: the fields of the byte of each command. -/
theorem decodeOfEncode : Obligations.DecodeOfEncode := by
  unfold Obligations.DecodeOfEncode
  intro i
  rw [decode_of_rsv_zero (cmdRsv_encode i)]
  cases i with
  | enc q => rw [cmdOp_encode_enc, cmdPred_encode_enc, if_pos rfl]
  | dec q => rw [cmdOp_encode_dec, cmdPred_encode_dec, if_neg (by decide)]

/-- What a byte with `RSV = 0` decodes to encodes back to it (rule R52). -/
theorem exists_decode_of_rsv_zero {c : Byte} (h : cmdRsv c = 0#4) : ∃ i, decode c = .ok i ∧ encode i = c := by
  have hfields := cmdByte_fields c
  rw [h] at hfields
  rw [decode_of_rsv_zero h]
  rcases BitVec.eq_zero_or_eq_one (cmdOp c) with hop | hop
  · rw [hop] at hfields ⊢
    exact ⟨_, if_pos rfl, hfields⟩
  · rw [hop] at hfields ⊢
    exact ⟨_, if_neg (by decide), hfields⟩

/-- Settles O3: `RSV` decides whether a byte decodes, and a byte is made of its fields. -/
theorem encodeOfDecode : Obligations.EncodeOfDecode := by
  unfold Obligations.EncodeOfDecode
  have hrsv : ∀ c i, decode c = .ok i → cmdRsv c = 0#4 := fun c i hi => by
    by_contra hne
    rw [decode_of_rsv_ne_zero hne] at hi
    cases hi
  refine ⟨fun c i hi => ?oneMeaning, fun c => ⟨fun he hz => ?rejected, decode_of_rsv_ne_zero⟩,
    fun c => ⟨fun ⟨i, hi⟩ => hrsv c i hi, fun hz => ?decoded⟩⟩
  case oneMeaning =>
    obtain ⟨i', hi', hc⟩ := exists_decode_of_rsv_zero (hrsv c i hi)
    rw [hi] at hi'
    cases hi'
    exact hc
  case rejected =>
    obtain ⟨i, hi, -⟩ := exists_decode_of_rsv_zero hz
    rw [he] at hi
    cases hi
  case decoded =>
    obtain ⟨i, hi, -⟩ := exists_decode_of_rsv_zero hz
    exact ⟨i, hi⟩

/-! ## Command issue -/

/-- A byte that decodes is given the meaning of its command. -/
theorem commandByte_of_decode {c : Byte} {i : Instr} (h : decode c = .ok i) (s : State) : commandByte c s = exec i s := by
  rw [commandByte, h]

/-- Settles O5: the write gives the engine the low 8 bits of its value as a command byte. -/
theorem stepRunsDecodedCommand : Obligations.StepRunsDecodedCommand := by
  unfold Obligations.StepRunsDecodedCommand
  intro s v rest i h hb hi
  calc step s
      = writeReg 6 v { s with schedule := rest } := by rw [step_host h, popTurn_eq h]; rfl
    _ = commandByte (BitVec.ofNat 8 v) { s with schedule := rest } := (if_neg hb).trans (if_pos rfl)
    _ = exec i { s with schedule := rest } := commandByte_of_decode hi _

/-- Settles O10: a command is an issue, which a BUSY engine ignores. -/
theorem commandWhileBusyIgnored : Obligations.CommandWhileBusyIgnored := by
  unfold Obligations.CommandWhileBusyIgnored
  intro i s hb
  rw [exec_eq_issue, issue_busy hb]

/-- Each outcome of an issue overwrites STATUS (rules R15, R96, R143). -/
theorem issue_status_irrelevant (c : Byte) {s : State} {st : EngineState} (e : Option FaultCode) (hb : s.state ≠ .busy)
    (hst : st ≠ .busy) : issue c { s with state := st, errCode := e } = issue c s := by
  cases hc : startCheck c s.cfg.nwords s.params with
  | some code =>
    rw [issue_fault hb hc, issue_fault (s := { s with state := st, errCode := e }) hst hc]
    rfl
  | none =>
    by_cases he : s.params.regionW = 0 ∨ s.params.regionH = 0
    · rw [issue_pass_empty hb hc he, issue_pass_empty (s := { s with state := st, errCode := e }) hst hc he]
    · rw [issue_pass_cells hb hc he, issue_pass_cells (s := { s with state := st, errCode := e }) hst hc he]

/-- Settles O9: the fault leaves everything the start check reads, and an issue overwrites what STATUS held. -/
theorem refaultsTheSame : Obligations.RefaultsTheSame := by
  unfold Obligations.RefaultsTheSame
  refine ⟨fun i s code hb hc => ?refault, fun i s st e hb hst => ?status⟩
  case refault =>
    have herror : EngineState.error ≠ .busy := by decide
    exact ⟨_, exec_fault hb hc, rfl, rfl, exec_fault (s := { s with state := .error, errCode := some code }) herror hc⟩
  case status => rw [exec_eq_issue, exec_eq_issue, issue_status_irrelevant _ e hb hst]

/-- Issue moves the scan position only when it starts a scan, and latches nothing when it takes the fault (rules R16, R18,
R137). -/
theorem issue_position_and_latch (c : Byte) (s : State) :
    ((issue c s).state ≠ .busy → (issue c s).curX = s.curX ∧ (issue c s).curY = s.curY) ∧
      ((issue c s).state = .error → (issue c s).actOp = s.actOp ∧ (issue c s).actPred = s.actPred) := by
  rcases issue_cases c s with ⟨-, he⟩ | ⟨-, code, -, he⟩ | ⟨-, -, -, he⟩ | ⟨-, -, -, he⟩ <;> rw [he]
  · exact ⟨fun _ => ⟨rfl, rfl⟩, fun _ => ⟨rfl, rfl⟩⟩
  · exact ⟨fun _ => ⟨rfl, rfl⟩, fun _ => ⟨rfl, rfl⟩⟩
  · exact ⟨fun _ => ⟨rfl, rfl⟩, fun h => nomatch h⟩
  · exact ⟨fun h => absurd rfl h, fun h => nomatch h⟩

/-- Settles O20: a command is an issue, and this is what an issue leaves unchanged. -/
theorem commandFrame : Obligations.CommandFrame := by
  unfold Obligations.CommandFrame
  intro i s t h
  rw [exec_eq_issue] at h
  obtain rfl := Host.Outcome.next.inj h
  obtain ⟨hcfg, hparams, hsrc, hdst, hsched, hrec, hdraws⟩ := issue_frame (encode i) s
  obtain ⟨hpos, hlatch⟩ := issue_position_and_latch (encode i) s
  exact ⟨hcfg, hparams, hsrc, hdst, hsched, hrec, hdraws, hpos, hlatch⟩

end Sys2Proof.Machine

/-! # The buffers, predictions and the scan order (spec/20_memory.md, spec/40_predictor.md, spec/42_scan.md) -/

namespace Sys2Proof.Machine

/-! ## Memory -/

/-- Settles O32: a read after a write. -/
theorem readAfterWrite : Obligations.ReadAfterWrite := fun _ _ _ _ _ => Memory.read_write

/-- Canonical memories of `n` words that agree at every index below `n` are equal: above they read as unlisted. -/
theorem Memory.ext_below {n : Nat} {m m' : Memory} (h : m.wf n = true) (h' : m'.wf n = true)
    (hr : ∀ i, i < n → m.read i = m'.read i) : m = m' := by
  refine Memory.ext_wf h h' fun i => ?_
  by_cases hi : i < n
  · exact hr i hi
  · rw [Memory.read_above h (by omega), Memory.read_above h' (by omega)]

/-- Settles O33: the canonical form is kept by a write, and determines a memory by its reads. -/
theorem memoryStaysCanonical : Obligations.MemoryStaysCanonical :=
  ⟨fun _ _ _ _ => Memory.wf_write, fun _ _ _ => Memory.ext_below⟩

/-- A host's turn that writes a word is a move on its buffer (rule R146). -/
theorem step_writeWord {s : State} {b : Buffer} {i : Nat} {v : Word} {rest : List Turn}
    (h : s.schedule = .host (.writeWord b i v) :: rest) :
    step s = bufferMove b i { s with schedule := rest } (storeWord b i v { s with schedule := rest }) := by
  rw [step_host h, popTurn_eq h]
  rfl

/-- A host's turn that reads a word is a move on its buffer (rule R146). -/
theorem step_readWord {s : State} {b : Buffer} {i : Nat} {rest : List Turn}
    (h : s.schedule = .host (.readWord b i) :: rest) :
    step s = bufferMove b i { s with schedule := rest }
      (receive ((bufferOf b s).read i).toNat { s with schedule := rest }) := by
  rw [step_host h, popTurn_eq h]
  cases b <;> rfl

/-- A move on a buffer the host owns, at an index that exists, is made. -/
theorem bufferMove_made {s t : State} {b : Buffer} {i : Nat} (hb : s.state ≠ .busy) (hi : i < s.cfg.nwords) :
    bufferMove b i s t = .next t := (if_neg hb).trans (if_pos hi)

/-- Settles O14: the host owns the buffers while the engine is not BUSY, so each move is made. -/
theorem hostBufferMoves : Obligations.HostBufferMoves := by
  unfold Obligations.HostBufferMoves
  intro s i v rest hb hi
  exact ⟨fun h => (step_writeWord h).trans (bufferMove_made hb hi),
    fun h => (step_writeWord h).trans (bufferMove_made hb hi),
    fun h => (step_readWord h).trans (bufferMove_made hb hi),
    fun h => (step_readWord h).trans (bufferMove_made hb hi)⟩

/-! ## Predictions -/

/-- Settles O30: the neighbours lie before the cell, and only they are read. -/
theorem predictionReadsEarlierCells : Obligations.PredictionReadsEarlierCells := by
  unfold Obligations.PredictionReadsEarlierCells
  refine ⟨fun b b' w h x y hx hr => pred32_congr_below hx hr, fun b b' w h x y hx hr => ?neighbours⟩
  case neighbours => exact pred32_congr_neighbours (p := ⟨w, h, 0, 0, 0, 0⟩) hx hr

/-! ## The scan order -/

/-- A later cell of the scan lies in a later row, or further right in the same row (rule R97). -/
theorem nthCell_rowMajor (p : Params) {j k : Nat} (h : j < k) :
    (nthCell p j).2 < (nthCell p k).2 ∨ (nthCell p j).2 = (nthCell p k).2 ∧ (nthCell p j).1 < (nthCell p k).1 := by
  have hj := Nat.div_add_mod j p.regionW
  have hk := Nat.div_add_mod k p.regionW
  rcases (Nat.div_le_div_right h.le : j / p.regionW ≤ k / p.regionW).lt_or_eq with hrow | hrow
  · exact Or.inl (Nat.add_lt_add_left hrow _)
  · rw [hrow] at hj
    exact Or.inr ⟨congrArg (p.originY + ·) hrow, Nat.add_lt_add_left (by omega) _⟩

theorem regionCells_rowMajor (p : Params) :
    (regionCells p).Pairwise fun c d => c.2 < d.2 ∨ (c.2 = d.2 ∧ c.1 < d.1) := by
  rw [regionCells_eq_map, List.pairwise_map]
  exact List.pairwise_lt_range.imp fun h => nthCell_rowMajor p h

/-- Settles O44: the list by its members, and as the list of the `k`-th cells. -/
theorem scanOrder : Obligations.ScanOrder := by
  unfold Obligations.ScanOrder
  refine fun p => ⟨fun x y => mem_regionCells, regionCells_rowMajor p, regionCells_length p, fun hw hh => ?first⟩
  case first =>
    rw [List.head?_eq_getElem?, regionCells_getElem? (Nat.mul_pos hw hh), nthCell, Nat.zero_mod, Nat.zero_div]
    rfl

/-! ## Self-contained regions and tiles -/

/-- Settles O58: the first cell of a region off an edge has a neighbour beyond it; a region at (0,0) has none, and so its
decode reads nothing of DST that it did not write. -/
theorem selfContainedRegions : Obligations.SelfContainedRegions := by
  unfold Obligations.SelfContainedRegions
  intro n p ha
  refine ⟨⟨fun hself => ?atOrigin, fun hp x y x' y' hc hn => by omega⟩, fun hx hy src d d' hd hd' => ?decode⟩
  case atOrigin =>
    by_contra hne
    have hfirst : p.inRegion p.originX p.originY := by omega
    by_cases hx : p.originX = 0
    · have hup := hself _ _ p.originX (p.originY - 1) hfirst (by omega)
      omega
    · have hleft := hself _ _ (p.originX - 1) p.originY hfirst (by omega)
      omega
  case decode =>
    exact decLoop_congr ha hd hd' fun x y x' y' hc hn hc' => absurd (by omega : p.inRegion x' y') hc'

/-- Tiles decoded in turn from residuals, each after the tiles it needs, have left the pixels on their cells
(rule R124). -/
theorem foldl_decLoop_read {n w h : Nat} {pix r d : Memory} {gs : List Params} (hd : d.wf n = true)
    (hgs : ∀ g ∈ gs, g.width = w ∧ g.height = h ∧ g.accepted n ∧ holdsResiduals g pix r)
    (horder : ∀ pre g post, gs = pre ++ g :: post → ∀ x y x' y', g.inRegion x y → isNeighbour x y x' y' →
      ¬ g.inRegion x' y' → ∃ g' ∈ pre, g'.inRegion x' y') :
    (gs.foldl (fun d g => decLoop g r d) d).wf n = true ∧
      ∀ g ∈ gs, ∀ x y, g.inRegion x y →
        (gs.foldl (fun d g => decLoop g r d) d).read (y * w + x) = pix.read (y * w + x) := by
  induction gs using List.reverseRecOn with
  | nil => exact ⟨hd, fun g hg => absurd hg List.not_mem_nil⟩
  | append_singleton pre g ih =>
    obtain ⟨hwf, hpre⟩ := ih (fun g' hg' => hgs g' (List.mem_append_left _ hg'))
      fun pre' g' post he => horder pre' g' (post ++ [g]) (by rw [he, List.append_assoc, List.cons_append])
    obtain ⟨hw, -, ha, hres⟩ := hgs g (by simp)
    have hborder : holdsBorder g pix (pre.foldl (fun d g => decLoop g r d) d) := fun x y x' y' hc hn hc' => by
      obtain ⟨g', hg', hin⟩ := horder pre g [] rfl x y x' y' hc hn hc'
      rw [Params.cellOffset, hw]
      exact hpre g' hg' x' y' hin
    have hlast : ∀ x y, g.inRegion x y →
        (decLoop g r (pre.foldl (fun d g => decLoop g r d) d)).read (y * w + x) = pix.read (y * w + x) :=
      fun x y hc => by
        rw [← hw]
        exact decLoop_read_of_residuals ha hwf hres hborder x y hc
    rw [List.foldl_append]
    refine ⟨decLoop_wf ha hwf, fun g' hg' x y hc => ?_⟩
    by_cases hin : g.regionOffset (y * w + x)
    · obtain ⟨x₁, y₁, hc₁, he⟩ := hin
      rw [he, Params.cellOffset, hw]
      exact hlast x₁ y₁ hc₁
    · have hmem : g' ∈ pre := (List.mem_append.mp hg').resolve_right fun hg => by
        obtain rfl := List.mem_singleton.mp hg
        exact hin ⟨x, y, hc, by rw [Params.cellOffset, hw]⟩
      exact (decLoop_read_other ha hwf hin).trans (hpre g' hmem x y hc)

/-- Settles O53: every cell of the raster is a tile's. -/
theorem tiledDecode : Obligations.TiledDecode := by
  unfold Obligations.TiledDecode
  intro n w h pix r d gs hd hgs hcover _ horder x y hx hy
  obtain ⟨g, hg, hc⟩ := hcover x y hx hy
  obtain ⟨-, hread⟩ := foldl_decLoop_read hd hgs horder
  exact hread g hg x y hc

end Sys2Proof.Machine

/-! # What each step does and leaves unchanged (spec/10_state.md, spec/42_scan.md section 2) -/

namespace Sys2Proof.Machine

/-! ## The state after reset -/

/-- The state after reset meets the invariant (rules R6, R23, R30). -/
theorem resetWith_inv {cfg : Config} {src dst : Memory} (hcfg : cfg.wf = true) (hsrc : src.wf cfg.nwords = true)
    (hdst : dst.wf cfg.nwords = true) : (State.resetWith cfg src dst).Inv := by
  have hpos : 0 < 2 ^ cfg.cw := Nat.two_pow_pos _
  exact ⟨hcfg, ⟨hpos, hpos, hpos, hpos, hpos, hpos⟩, hpos, hpos, hsrc, hdst, by simp [State.resetWith],
    fun hb => nomatch hb⟩

/-- `STATUS` after reset (rules R23, R56). -/
theorem statusByte_resetWith (cfg : Config) (src dst : Memory) : statusByte (State.resetWith cfg src dst) = 0x00#8 := by
  have hfields : errBits none ++ 0#2 ++ EngineState.idle.bits = 0x00#8 := by decide
  exact hfields

/-- Settles O39: the invariant for valid parameters, of which the reference ones are a case; the fields by their values. -/
theorem resetMeetsInvariant : Obligations.ResetMeetsInvariant := by
  unfold Obligations.ResetMeetsInvariant
  exact ⟨resetWith_inv (by decide) (Memory.wf_nil _) (Memory.wf_nil _), fun cfg src dst hcfg hsrc hdst =>
    ⟨resetWith_inv hcfg hsrc hdst, rfl, rfl, rfl, statusByte_resetWith cfg src dst, rfl, rfl⟩⟩

/-! ## The engine's turn -/

/-- When the engine is not BUSY its turn is only taken off the schedule (rule R148, log entry 4). -/
theorem step_engine_idle {s : State} (he : s.engineMoves) (hb : s.state ≠ .busy) : step s = .next s.popTurn := by
  rw [step_engine he]
  exact if_neg hb

/-- Settles O38: CELL is not enabled. -/
theorem idleEngineWaits : Obligations.IdleEngineWaits := fun _ => step_engine_idle

/-- Settles O34: the word of the latched operation, with the neighbours it reads. -/
theorem cellStep : Obligations.CellStep := by
  unfold Obligations.CellStep
  intro s hinv hb he
  have hstep := step_cell hinv hb he
  unfold outWord at hstep
  exact ⟨fun hop => by rw [hstep, hop]; rfl, fun hop => by rw [hstep, hop]; rfl⟩

/-- A turn of the engine changes DST, STATE and the scan position only (rules R11, R34). -/
theorem engineTurn_sameCommand {s t : State} (h : engineTurn s = .next t) : SameCommand s t := by
  rcases engineTurn_next_cases h with ⟨-, rfl⟩ | ⟨-, rfl⟩
  · obtain ⟨hcfg, hparams, herr, hop, hpred, hsrc, -, hsched, hrec⟩ :=
      advance_frame (storeDst (offset s) (outWord pred32 s) s)
    exact ⟨hcfg, hparams, herr, hop, hpred, hsrc, hsched, hrec⟩
  · exact SameCommand.rfl' _

/-- Settles O35: the engine's turn keeps what belongs to the command, and a cell writes one word. -/
theorem cellFrame : Obligations.CellFrame := by
  unfold Obligations.CellFrame
  intro s t hinv hb he h
  have hsame : SameCommand s.popTurn t := engineTurn_sameCommand (by rw [← step_engine he, h])
  refine ⟨hsame.cfg, hsame.params, hsame.errCode, hsame.actOp, hsame.actPred, hsame.src, hsame.received, hsame.schedule,
    fun i hi => ?otherWords⟩
  case otherWords =>
    obtain rfl := Host.Outcome.next.inj ((step_cell hinv hb he).symm.trans h)
    obtain ⟨-, -, -, -, -, -, hdst, -⟩ := advance_frame (storeDst (offset s) (outWord pred32 s) s.popTurn)
    obtain ⟨-, -, -, -, -, hwf, -, -⟩ := hinv
    rw [hdst]
    exact Memory.read_write_other hwf hi

/-- ADVANCE ends the run on the region's last cell and on no other (rule R104). -/
theorem advance_state {s : State} (hc : s.params.inRegion s.curX s.curY) :
    (s.curX + 1 = s.params.originX + s.params.regionW ∧ s.curY + 1 = s.params.originY + s.params.regionH →
      (advance s).state = .done) ∧
    (¬ (s.curX + 1 = s.params.originX + s.params.regionW ∧ s.curY + 1 = s.params.originY + s.params.regionH) →
      (advance s).state = s.state) := by
  rcases advance_cases s with ⟨hx, he⟩ | ⟨-, hy, he⟩ | ⟨hx, hy, he⟩ <;> rw [he]
  · exact ⟨fun hlast => absurd hlast.1 hx.ne, fun _ => rfl⟩
  · exact ⟨fun hlast => absurd hlast.2 hy.ne, fun _ => rfl⟩
  · unfold Params.regionRight at hx
    unfold Params.regionBottom at hy
    exact ⟨fun _ => rfl, fun hlast => absurd ⟨by omega, by omega⟩ hlast⟩

/-! ## The host's actions -/

/-- STATE, `ACT_OP` and `ACT_PRED`: what only the engine's turn, a command or a reset may change. -/
structure SameControl (s t : State) : Prop where
  state : t.state = s.state
  actOp : t.actOp = s.actOp
  actPred : t.actPred = s.actPred

/-- Of the host's actions only a reset and an issued command change STATE and the latched fields (rules R14, R16). -/
theorem hostAct_sameControl {a : HostAction} {s t : State} (h : hostAct a s = .next t) (hr : a ≠ .reset)
    (hw : ∀ v, a = .write 6 v → s.state = .busy) : SameControl s t := by
  cases a with
  | write index value =>
    rcases writeReg_next_cases h with ⟨-, rfl⟩ | ⟨hb, hi, -⟩ | ⟨-, -, rfl⟩
    · exact ⟨rfl, rfl, rfl⟩
    · exact absurd (hw value (by rw [hi])) hb
    · exact ⟨rfl, rfl, rfl⟩
  | read index => cases h; exact ⟨rfl, rfl, rfl⟩
  | wait =>
    cases h
    obtain ⟨-, -, hstate, -, hop, hpred, -⟩ := waitPoll_frame s
    exact ⟨hstate, hop, hpred⟩
  | writeWord b i v =>
    obtain ⟨-, -, rfl⟩ := bufferMove_next h
    obtain ⟨-, -, hstate, -, hop, hpred⟩ := storeWord_frame b i v s
    exact ⟨hstate, hop, hpred⟩
  | readWord b i =>
    obtain ⟨-, -, rfl⟩ := bufferMove_next h
    exact ⟨rfl, rfl, rfl⟩
  | reset => exact absurd rfl hr

/-- A step that neither resets nor issues a command is the engine's turn, or leaves STATE and the latched fields. -/
theorem step_engine_or_sameControl {s t : State} (h : step s = .next t) (hr : s.schedule.head? ≠ some (.host .reset))
    (hw : ∀ v, s.schedule.head? = some (.host (.write 6 v)) → s.state = .busy) :
    (s.engineMoves ∧ engineTurn s.popTurn = .next t) ∨ SameControl s t := by
  rcases step_next_cases h with hengine | ⟨a, ha, he⟩
  · exact Or.inl hengine
  · have hsame : SameControl s.popTurn t :=
      hostAct_sameControl he (fun hc => hr (by rw [ha, hc])) fun v hv => hw v (by rw [ha, hv])
    exact Or.inr ⟨hsame.state, hsame.actOp, hsame.actPred⟩

/-- A CMD write of a byte, as the next turn of a machine that is not BUSY, answers the issue of that byte. -/
theorem step_issue_next {s t : State} {c : Byte} (h : step s = .next t)
    (hw : s.schedule.head? = some (.host (.write 6 c.toNat))) (hb : s.state ≠ .busy) : t = issue c s.popTurn := by
  rw [step_command_next h hw hb, BitVec.ofNat_toNat, BitVec.setWidth_eq]

/-- Settles O16: the rows of rule R14's table are the reset event, the outcomes of an issue and ADVANCE. -/
theorem stateTransitions : Obligations.StateTransitions := by
  unfold Obligations.StateTransitions
  intro s t hinv h
  refine ⟨fun hr => ?reset, fun c hw hb => ⟨fun code hc => ?fault, fun hc => ⟨fun he => ?empty, fun he => ?cells⟩⟩,
    fun he hb => ?cell, fun hr hw hidle => ?held⟩
  case reset => rw [step_reset_next h hr, applyReset_state]
  case fault =>
    rw [step_issue_next h hw hb, issue_fault (s := s.popTurn) hb hc]
    exact ⟨rfl, rfl⟩
  case empty => rw [step_issue_next h hw hb, issue_pass_empty (s := s.popTurn) hb hc he]
  case cells => rw [step_issue_next h hw hb, issue_pass_cells (s := s.popTurn) hb hc he]
  case cell =>
    obtain rfl := Host.Outcome.next.inj ((step_cell hinv hb he).symm.trans h)
    obtain ⟨-, -, -, -, -, -, -, hscan⟩ := hinv
    obtain ⟨-, -, hc⟩ := hscan hb
    obtain ⟨hdone, hbusy⟩ := advance_state (s := storeDst (offset s) (outWord pred32 s) s.popTurn) hc
    exact ⟨hdone, fun hlast => (hbusy hlast).trans hb⟩
  case held =>
    rcases step_engine_or_sameControl h hr hw with ⟨he, -⟩ | hsame
    · rw [step_engine_idle he fun hb => hidle ⟨he, hb⟩] at h
      cases h
      rfl
    · exact hsame.state

/-- Settles O18: an accepted command latches its byte, a rejected one nothing; the engine's turn and the host's other
actions keep the fields. -/
theorem latchedFieldsHeld : Obligations.LatchedFieldsHeld := by
  unfold Obligations.LatchedFieldsHeld
  refine fun s t h => ⟨fun c hw hb hc => ?latched, fun hr hw => ?held⟩
  case latched =>
    rw [← ofBit_cmdOp, step_issue_next h hw hb]
    by_cases he : s.params.regionW = 0 ∨ s.params.regionH = 0
    · rw [issue_pass_empty (s := s.popTurn) hb hc he]
      exact ⟨rfl, rfl⟩
    · rw [issue_pass_cells (s := s.popTurn) hb hc he]
      exact ⟨rfl, rfl⟩
  case held =>
    by_cases hcmd : ∀ v, s.schedule.head? = some (.host (.write 6 v)) → s.state = .busy
    · rcases step_engine_or_sameControl h hr hcmd with ⟨-, he⟩ | hsame
      · have hsame : SameCommand s.popTurn t := engineTurn_sameCommand he
        exact ⟨hsame.actOp, hsame.actPred⟩
      · exact ⟨hsame.actOp, hsame.actPred⟩
    · push Not at hcmd
      obtain ⟨v, hv, hb⟩ := hcmd
      obtain ⟨c, rfl, hc⟩ := hw v hv hb
      obtain ⟨code, hcode⟩ := Option.ne_none_iff_exists'.mp hc
      rw [step_issue_next h hv hb, issue_fault (s := s.popTurn) hb hcode]
      exact ⟨rfl, rfl⟩

/-! ## The parameter registers and SRC -/

/-- No host action changes the machine's fixed parameters; a parameter register changes only by a reset or by a write of it
when not BUSY (rules R11, R17); SRC changes only by a move on it when not BUSY (rule R146). -/
theorem hostAct_changes {a : HostAction} {s t : State} (h : hostAct a s = .next t) :
    t.cfg = s.cfg ∧
    (t.params ≠ s.params → a = .reset ∨ (s.state ≠ .busy ∧ ∃ index v, index ≤ 5 ∧ a = .write index v)) ∧
    (t.src ≠ s.src → s.state ≠ .busy ∧ ∃ i v, a = .writeWord .src i v) := by
  cases a with
  | write index value =>
    rcases writeReg_next_cases h with ⟨-, rfl⟩ | ⟨-, -, rfl⟩ | ⟨hb, -, rfl⟩
    · exact ⟨rfl, absurd rfl, absurd rfl⟩
    · obtain ⟨hcfg, hparams, hsrc, -⟩ := issue_frame (BitVec.ofNat 8 value) s
      exact ⟨hcfg, absurd hparams, absurd hsrc⟩
    · refine ⟨rfl, fun hne => Or.inr ⟨hb, index, value, ?_, rfl⟩, absurd rfl⟩
      by_contra habove
      exact hne (Params.set_above (by omega))
  | read index => cases h; exact ⟨rfl, absurd rfl, absurd rfl⟩
  | wait =>
    cases h
    obtain ⟨hcfg, hparams, -, -, -, -, hsrc, -⟩ := waitPoll_frame s
    exact ⟨hcfg, absurd hparams, absurd hsrc⟩
  | writeWord b i v =>
    obtain ⟨hb, -, rfl⟩ := bufferMove_next h
    cases b with
    | src => exact ⟨rfl, absurd rfl, fun _ => ⟨hb, i, v, rfl⟩⟩
    | dst => exact ⟨rfl, absurd rfl, absurd rfl⟩
  | readWord b i =>
    obtain ⟨-, -, rfl⟩ := bufferMove_next h
    exact ⟨rfl, absurd rfl, absurd rfl⟩
  | reset => cases h; exact ⟨rfl, fun _ => Or.inl rfl, absurd rfl⟩

/-- Settles O19: the engine's turn changes none of these, and each host action at most the ones it names. -/
theorem onlyHostChangesParamsAndSrc : Obligations.OnlyHostChangesParamsAndSrc := by
  unfold Obligations.OnlyHostChangesParamsAndSrc
  intro s t h
  rcases step_next_cases h with ⟨-, he⟩ | ⟨a, ha, he⟩
  · have hsame : SameCommand s.popTurn t := engineTurn_sameCommand he
    exact ⟨hsame.cfg, absurd hsame.params, absurd hsame.src⟩
  · obtain ⟨hcfg, hparams, hsrc⟩ := hostAct_changes he
    rw [ha]
    refine ⟨hcfg, fun hne => (hparams hne).imp ?_ ?_, fun hne => ?_⟩
    · rintro rfl; rfl
    · rintro ⟨hb, index, v, hle, rfl⟩
      exact ⟨hb, index, v, hle, rfl⟩
    · obtain ⟨hb, i, v, rfl⟩ := hsrc hne
      exact ⟨hb, i, v, rfl⟩

/-! ## Progress -/

/-- Every host action on registers answers a next state, whatever the state (rules R17, R59, R155). -/
theorem hostAct_onRegisters {a : HostAction} (ha : a.onRegisters = true) (s : State) : ∃ t, hostAct a s = .next t := by
  cases a with
  | write index value =>
    show ∃ t, writeReg index value s = .next t
    unfold writeReg
    split
    · exact ⟨_, rfl⟩
    · next hb =>
      split
      · exact ⟨_, commandByte_eq_issue _ hb⟩
      · exact ⟨_, rfl⟩
  | read index => exact ⟨_, rfl⟩
  | wait => exact ⟨_, rfl⟩
  | writeWord b i v => cases ha
  | readWord b i => cases ha
  | reset => exact ⟨_, rfl⟩

/-- The turn of the engine in a state of the invariant answers a next state (rules R110, R139). -/
theorem exists_step_engine {s : State} (hinv : s.Inv) (he : s.engineMoves) : ∃ t, step s = .next t := by
  by_cases hb : s.state = .busy
  · exact ⟨_, step_cell hinv hb he⟩
  · exact ⟨_, step_engine_idle he hb⟩

/-- A host's turn on a word of a buffer is a buffer move to a state it would answer. -/
theorem step_buffer_turn {s : State} {b : Buffer} {i : Nat} {v : Word} {rest : List Turn}
    (h : s.schedule = .host (.writeWord b i v) :: rest ∨ s.schedule = .host (.readWord b i) :: rest) :
    ∃ t, step s = bufferMove b i { s with schedule := rest } t := by
  rcases h with h | h
  · exact ⟨_, step_writeWord h⟩
  · exact ⟨_, step_readWord h⟩

/-- Settles O41: the engine's turn, the actions on registers, and the three outcomes of a buffer move. -/
theorem stepsNeverStick : Obligations.StepsNeverStick := by
  unfold Obligations.StepsNeverStick
  refine fun s hinv => ⟨exists_step_engine hinv, fun a rest h ha => ?registers, fun b i v rest h => ?buffers⟩
  case registers =>
    rw [step_host h]
    exact hostAct_onRegisters ha _
  case buffers =>
    obtain ⟨t, hstep⟩ := step_buffer_turn h
    rw [hstep]
    exact ⟨fun hb => if_pos hb, fun hb hi => ⟨t, bufferMove_made hb hi⟩,
      fun hb hi => (if_neg hb).trans (if_neg hi.not_gt)⟩

end Sys2Proof.Machine
